-- ==== Sys2Proof/Word.lean ====
section
/-! DEFINITION. The words of the machine: the 8-bit instruction word, its two nibbles, and the bit. -/

namespace Sys2Proof

/-- One instruction, 8 bits (spec 00_scope.md R5, 30_encoding.md R45). -/
abbrev Word := BitVec 8

/-- An opcode or operand nibble, 4 bits (spec 00_scope.md R5). -/
abbrev Nibble := BitVec 4

/-- The content of one cell of `Host.Cell`. -/
abbrev Byte := BitVec 8

/-- One bit of data: `true` is the spec's 1, `false` its 0 (spec 00_scope.md section 6). -/
abbrev Bit := Bool

/-- Text as the toolchain and the textual program form read it (spec 30_encoding.md R56, R58). -/
abbrev Text := List Char

end Sys2Proof
end

