-- ==== Sys2Proof/Syntax.lean ====
section
/-! DEFINITION. The instructions: one constructor per row of spec/opcode_table.json, each carrying its operand
nibble (spec 30_encoding.md R52, R55). -/

namespace Sys2Proof

/-- A decoded instruction. The operand forms are those of spec 30_encoding.md R47. -/
inductive Instr where
  /-- Opcode 0x0, operand ignored (R80). -/
  | nop (d : Nibble)
  /-- Opcode 0x1, data address read (R83). -/
  | ld (d : Nibble)
  /-- Opcode 0x2, data address read (R84). -/
  | ldc (d : Nibble)
  /-- Opcode 0x3, data address read (R85). -/
  | and (d : Nibble)
  /-- Opcode 0x4, data address read (R86). -/
  | andc (d : Nibble)
  /-- Opcode 0x5, data address read (R87). -/
  | or (d : Nibble)
  /-- Opcode 0x6, data address read (R88). -/
  | orc (d : Nibble)
  /-- Opcode 0x7, data address read (R89). -/
  | xnor (d : Nibble)
  /-- Opcode 0x8, data address written (R90). -/
  | sto (d : Nibble)
  /-- Opcode 0x9, data address written (R91). -/
  | stoc (d : Nibble)
  /-- Opcode 0xA, 4-bit immediate (R93). -/
  | ien (d : Nibble)
  /-- Opcode 0xB, 4-bit immediate (R94). -/
  | oen (d : Nibble)
  /-- Opcode 0xC, branch offset (R97). -/
  | jmp (d : Nibble)
  /-- Opcode 0xD, operand ignored; the assembler's `ret` (R98). -/
  | rtn (d : Nibble)
  /-- Opcode 0xE, operand ignored (R99). -/
  | skz (d : Nibble)
  /-- Opcode 0xF, operand ignored, no mnemonic (R81). -/
  | nopf (d : Nibble)
deriving DecidableEq, Repr

end Sys2Proof
end

