-- ==== Sys2Proof/Config.lean ====
section
/-! DEFINITION. What is fixed for the machine: the parameters of spec 00_scope.md R5 and R6, and the values
this model names where the spec gives none. -/

namespace Sys2Proof.Config

/-- Cells per array of the data space: indices are 3 bits wide (spec 00_scope.md R5, 30_encoding.md R48). -/
def cellCount : Nat := 8

/-- The lowest RAM address and output-pin index that exists (spec 10_state.md R16, R18). -/
def firstStoredCell : Nat := 1

/-- The lowest input-pin index (spec 10_state.md R17). -/
def firstInputPin : Nat := 0

/-- What a cell that no entry lists holds: 0, the spec's reset content of RAM, of the output pins and of the
input pins 1 to 7 (spec 10_state.md R22). Log entry 13. -/
def unlistedByte : Byte := 0x00#8

/-- The byte that holds a cell whose bit is 1. Log entry 13. -/
def oneByte : Byte := 0x01#8

/-- The value `IEN` holds at reset. DESIGN CHOICE: the spec gives none and calls the register unwritten
(spec 10_state.md R22, D8). Unsafe. Log entry 3. -/
def ienReset : Nibble := 0x0#4

/-- The value `OEN` holds at reset. DESIGN CHOICE: the spec gives none and calls the register unwritten
(spec 10_state.md R22, D8). Unsafe. Log entry 3. -/
def oenReset : Nibble := 0x0#4

/-- The word that fills a program store below a word placed beyond its end: NOP with operand 0. Used only by
`State.withFetchWord`. Log entry 12. -/
def paddingWord : Word := 0x00#8

/-- The macro depth limit the spec suggests; the limit itself is an argument of the assembler
(spec 00_scope.md R6, 30_encoding.md R70, D19). -/
def suggestedMacroDepth : Nat := 64

end Sys2Proof.Config
end

