-- ==== Sys2Proof/Machine/AsmSyntax.lean ====
section
/-! DEFINITION. The toolchain's data: macro tables and errors (spec 30_encoding.md R65, R72, R74). The hardware
depends on none of it (spec 00_scope.md R3). -/

namespace Sys2Proof.Machine

/-- One expansion step of a macro: a target name and its argument specifiers; a non-negative specifier is a
literal digit, `-k` refers back to the k-th actual argument (spec R65). -/
structure MacroStep where
  target : Text
  specs : List Int
deriving DecidableEq, Repr

/-- `MACROS`: macro names and their expansion steps, in order (spec R65, R71). -/
abbrev MacroTable := List (Text × List MacroStep)

/-- The assembler's parameters, left open by the spec (00_scope.md R6, D19, D20): the macro table and the depth
limit of expansion. -/
structure AsmConfig where
  macros : MacroTable
  depthMax : Nat
deriving DecidableEq, Repr

/-- An emitted (opcode, operand) pair (spec R63). -/
abbrev Pair := Nibble × Nibble

/-- The assembler's errors: the first four are the source's (spec R72), the last two this spec's (R74). -/
inductive AsmError where
  | unknownInstruction
  | unknownMacroTarget
  | tooManyArguments
  | tooFewArguments
  | badOperand
  | macroDepthExceeded
deriving DecidableEq, Repr

/-- How an assembly fails: with the error of a source line, every error of `AsmError` alike, and the 1-based position
of that line (spec R64, R73, R74). -/
structure AsmFailure where
  atLine ::
  position : Nat
  error : AsmError
deriving DecidableEq, Repr

end Sys2Proof.Machine
end

