-- ==== Sys2Proof/WellFormed.lean ====
section
/-! DEFINITION. Well-formedness: of instructions, of host arguments, of macro tables. -/

namespace Sys2Proof

/-- Every instruction is well-formed: every operand nibble is legal for every opcode (spec 30_encoding.md R53),
and the type of the operand admits nothing else. -/
def Instr.wellFormed : Instr → Bool
  | .nop _ | .ld _ | .ldc _ | .and _ | .andc _ | .or _ | .orc _ | .xnor _ => true
  | .sto _ | .stoc _ | .ien _ | .oen _ | .jmp _ | .rtn _ | .skz _ | .nopf _ => true

namespace Machine

/-- A pin index the host may assign: 0 to 7 (spec 70_reset_and_hazards.md R127). -/
def pinIndexOk (pin : Nat) : Bool := decide (pin < Config.cellCount)

/-- A value the host may assign to a pin: a bit (spec 70_reset_and_hazards.md R127). -/
def pinValueOk (value : Nat) : Bool := decide (value < 2)

/-- A specifier of a macro step: a back-reference, or a literal that fits the operand nibble
(spec 30_encoding.md R68). -/
def specOk (z : Int) : Bool := decide (z ≤ 15)

/-- A macro table the assembler accepts: no literal specifier above 15 (spec 30_encoding.md R68). -/
def macroTableOk (t : MacroTable) : Bool :=
  t.all fun entry => entry.2.all fun step => step.specs.all specOk

end Machine

end Sys2Proof
end

