-- ==== Sys2Proof/Decode.lean ====
section
/-! DEFINITION. The decoder, total on all 256 words (spec 30_encoding.md R53), and the encoder. -/

namespace Sys2Proof

/-- The opcode nibble `w[7:4]` (spec 30_encoding.md R46; log entry 1). -/
def opcodeField (w : Word) : Nibble := w.extractLsb' 4 4

/-- The operand nibble `w[3:0]` (spec 30_encoding.md R46; log entry 1). -/
def operandField (w : Word) : Nibble := w.extractLsb' 0 4

/-- The word `16*op + d` (spec 30_encoding.md R46). -/
def packWord (op d : Nibble) : Word := op ++ d

/-- The instruction of an opcode and an operand (spec 30_encoding.md R52; log entry 2). Opcodes 0 to 14 are
matched; the last arm is opcode 15, the only nibble left. -/
def instrOf (op d : Nibble) : Instr :=
  match op.toNat with
  | 0x0 => .nop d
  | 0x1 => .ld d
  | 0x2 => .ldc d
  | 0x3 => .and d
  | 0x4 => .andc d
  | 0x5 => .or d
  | 0x6 => .orc d
  | 0x7 => .xnor d
  | 0x8 => .sto d
  | 0x9 => .stoc d
  | 0xA => .ien d
  | 0xB => .oen d
  | 0xC => .jmp d
  | 0xD => .rtn d
  | 0xE => .skz d
  | _ => .nopf d

/-- The decoder (spec 30_encoding.md R45, R46, R52). It refuses nothing: no word is illegal (R53). -/
def decode (w : Word) : Instr := instrOf (opcodeField w) (operandField w)

/-- The opcode of each instruction (spec 30_encoding.md R52; log entry 2). -/
def Instr.opcode : Instr → Nibble
  | .nop _ => 0x0#4
  | .ld _ => 0x1#4
  | .ldc _ => 0x2#4
  | .and _ => 0x3#4
  | .andc _ => 0x4#4
  | .or _ => 0x5#4
  | .orc _ => 0x6#4
  | .xnor _ => 0x7#4
  | .sto _ => 0x8#4
  | .stoc _ => 0x9#4
  | .ien _ => 0xA#4
  | .oen _ => 0xB#4
  | .jmp _ => 0xC#4
  | .rtn _ => 0xD#4
  | .skz _ => 0xE#4
  | .nopf _ => 0xF#4

/-- The operand nibble an instruction carries. -/
def Instr.operand : Instr → Nibble
  | .nop d | .ld d | .ldc d | .and d | .andc d | .or d | .orc d | .xnor d => d
  | .sto d | .stoc d | .ien d | .oen d | .jmp d | .rtn d | .skz d | .nopf d => d

/-- The encoder: the word of an instruction (spec 30_encoding.md R46, R52). -/
def encode (i : Instr) : Word := packWord i.opcode i.operand

/-- What stops the decoder reading a stream: there is no word to decode. No word itself is refused
(spec 30_encoding.md R53). -/
inductive DecodeError where
  /-- The stream holds no further word. Raised by `decodeNext`; safe. -/
  | noWord
deriving DecidableEq, Repr

/-- The decoder over a word stream: the instruction of the first word and the rest; every instruction is one
word long (spec 30_encoding.md R45). -/
def decodeNext : List Word → Except DecodeError (Instr × List Word)
  | [] => .error .noWord
  | w :: rest => .ok (decode w, rest)

/-- The words of a numbered bit string of `nbits` bits, the first word in its lowest 8 bits; every instruction
here is one word. -/
def wordOfBits (nbits w : Nat) : Word := BitVec.ofNat 8 (w % 2 ^ nbits)

/-- The instruction the decoder reads from the bits `w` of a row of spec/opcode_table.json. -/
def decodeTableWord (nbits w : Nat) : Option Instr :=
  match decodeNext [wordOfBits nbits w] with
  | .ok (i, _) => some i
  | .error _ => none

end Sys2Proof
end

