-- ==== Sys2Proof/Machine/State.lean ====
section
/-! DEFINITION. The state of the machine as plain data, its faults and refusals, and the state after reset. -/

namespace Sys2Proof.Machine

/-- The faults of spec 60_exceptions.md R105: values of the sticky mark `fault`. A step that raises one is a NEXT
state with the mark set (R106; log entry 9). -/
inductive Fault where
  /-- `AddrZeroFault(d)`, label 1: LD, LDC, AND, ANDC, OR, ORC, XNOR at `d = 0x8`, STO and STOC at `d = 0x0` and
  `d = 0x8` (spec R107). The slot is undefined in the source; raising a fault there is safe (log entry 5). -/
  | addrZero (d : Nibble)
  /-- `PcUnderflowFault(target)`, label 2: a backward JMP with a target below word 0 (spec R108). The source
  is silent; raising a fault there is safe (log entry 6). -/
  | pcUnderflow (target : Int)
deriving DecidableEq, Repr

/-- Why a request is refused; a refused request changes nothing. -/
inductive Refusal where
  /-- An instruction that exec has no meaning for yet. Raised by no arm of this model; safe. -/
  | notModelled (mnemonic : String)
  /-- A step requested at `pc >= L`, raised by `step` (spec 70_reset_and_hazards.md R123, R126). Safe against
  every reading but a wrap to 0 (log entry 8). -/
  | runEnded
  /-- A step requested while the mark holds this fault, raised by `step` (spec 70_reset_and_hazards.md R126,
  60_exceptions.md R106). Safe. -/
  | machineFaulted (f : Fault)
  /-- `setInput` with a pin index outside 0 to 7, raised by `setInput` (spec 70_reset_and_hazards.md R127). Safe. -/
  | badPin (pin : Nat)
  /-- `setInput` with a value that is no bit, raised by `setInput` (spec 70_reset_and_hazards.md R127). Safe. -/
  | badPinValue (value : Nat)
  /-- A textual program with an odd number of digits, raised by `loadText` (spec 30_encoding.md R56). Safe. -/
  | oddProgramText
  /-- A textual program with a character that is no hexadecimal digit, raised by `loadText` (spec 30_encoding.md
  R56). Safe. -/
  | badProgramDigit (c : Char)
deriving DecidableEq, Repr

/-- One array of 1-bit cells as (index, byte) pairs; the canonical form is `Memory.wf`. A cell whose bit is 1
is listed with byte 0x01, every other cell is unlisted and reads 0x00 (log entry 13). -/
abbrev Memory := List Host.Cell

/-- The complete machine state of spec 10_state.md R23, with the program it runs (R20; log entry 12). -/
structure State where
  /-- The accumulator `RR` (spec 10_state.md R10). -/
  rr : Bit
  /-- The input-enable register (spec 10_state.md R13). -/
  ien : Nibble
  /-- Whether an IEN instruction has executed since reset; until then `IEN` is the spec's "unwritten"
  (spec 10_state.md R22; log entry 3). -/
  ienWritten : Bool
  /-- The output-enable register (spec 10_state.md R14). -/
  oen : Nibble
  /-- Whether an OEN instruction has executed since reset (spec 10_state.md R22; log entry 3). -/
  oenWritten : Bool
  /-- The program counter, a word index without bound (spec 10_state.md R15; log entry 7). -/
  pc : Nat
  /-- `RAM[1]` to `RAM[7]` (spec 10_state.md R16). -/
  ram : Memory
  /-- The input pins `IN[0]` to `IN[7]`, latched (spec 10_state.md R17). -/
  inp : Memory
  /-- The output pins `OUT[1]` to `OUT[7]`, latched (spec 10_state.md R18). -/
  out : Memory
  /-- The sticky fault mark (spec 10_state.md R19). -/
  fault : Option Fault
  /-- The loaded program `PROG`; its length is `L` (spec 10_state.md R20; log entry 12). -/
  prog : List Word
deriving DecidableEq, Repr

/-- The machine right after reset, no program loaded: spec 10_state.md R22 and 70_reset_and_hazards.md R120.
`RR` by D9 (log entry 4); `IEN` and `OEN` unwritten, holding the values of log entry 3. -/
def State.reset : State where
  rr := false
  ien := Config.ienReset
  ienWritten := false
  oen := Config.oenReset
  oenWritten := false
  pc := 0
  ram := []
  inp := [(0, Config.oneByte)]
  out := []
  fault := none
  prog := []

/-- The outcome of one step on this machine. -/
abbrev StepOutcome := Host.Outcome State Fault Refusal

end Sys2Proof.Machine
end

