-- ==== Sys2Proof/Machine/Flags.lean ====
section
/-! DEFINITION. There are no flags (spec 10_state.md R12). What stands here is the 1-bit ALU (spec 41_load_logic.md
R83 to R89, R95) and the one condition an instruction tests, `RR = 0` (R12, 44_control.md R99). -/

namespace Sys2Proof.Machine

/-- `~b` (spec 00_scope.md section 6). -/
def bitNot (b : Bit) : Bit := !b

/-- `a & b`. -/
def bitAnd (a b : Bit) : Bit := a && b

/-- `a | b`. -/
def bitOr (a b : Bit) : Bit := a || b

/-- 1 when the bits are equal, else 0 (spec 41_load_logic.md R89). -/
def bitXnor (a b : Bit) : Bit := a == b

/-- SKZ's condition: `RR = 0` (spec 44_control.md R99). -/
def skipsOnZero (rr : Bit) : Bool := bitNot rr

end Sys2Proof.Machine
end

