-- ==== Sys2Proof/Machine/Operands.lean ====
section
/-! DEFINITION. The four readings of the operand nibble (spec 30_encoding.md R47): data address, branch offset,
4-bit immediate, ignored. The immediate is the nibble itself (R50); an ignored operand has no reading (R51). -/

namespace Sys2Proof.Machine

/-- What a data address selects: RAM or the pins (spec 20_memory.md R27). -/
inductive Domain where
  | ram
  | pins
deriving DecidableEq, Repr

/-- The domain bit `d[3]`: set selects RAM (spec 20_memory.md R27, 30_encoding.md R48). -/
def domainOf (d : Nibble) : Domain := if d.getLsbD 3 then .ram else .pins

/-- The index `d[2:0]` within the domain (spec 20_memory.md R27, 30_encoding.md R48). -/
def indexOf (d : Nibble) : Nat := (d.extractLsb' 0 3).toNat

/-- The signed displacement in words that JMP adds to `pc + 1`: `4*(o-7)` for `o >= 8`, `-4*(o+1)` for `o < 8`
(spec 30_encoding.md R49). -/
def branchDisplacement (d : Nibble) : Int :=
  let o : Int := d.toNat
  if 8 ≤ o then 4 * (o - 7) else -(4 * (o + 1))

/-- The branch target of a JMP at index `pc`, in the integers (spec 44_control.md R97). -/
def branchTarget (pc : Nat) (d : Nibble) : Int := ((pc : Int) + 1) + branchDisplacement d

/-- The register that an immediate of IEN or OEN is copied into, unchanged (spec 30_encoding.md R50). -/
def immediateOf (d : Nibble) : Nibble := d

end Sys2Proof.Machine
end

