-- ==== Sys2Proof/Machine/Ops.lean ====
section
/-! DEFINITION. The shared operations: cells of the data space, field updates, the read and write primitives
(spec 20_memory.md R29, R30), raising a fault (spec 60_exceptions.md R106), and the program store. -/

namespace Sys2Proof.Machine

/-! ### Memories: one array of 1-bit cells -/

/-- The byte of one cell: its entry's, or `Config.unlistedByte` where none lists it. -/
def Memory.read : Memory → Nat → Byte
  | [], _ => Config.unlistedByte
  | (k, v) :: rest, a => if k = a then v else Memory.read rest a

/-- The cells without the entries of `a`. -/
def Memory.erase : Memory → Nat → Memory
  | [], _ => []
  | (k, v) :: rest, a => if k = a then Memory.erase rest a else (k, v) :: Memory.erase rest a

/-- The entry `(a, v)` put in front of the first entry of a higher index. -/
def Memory.insert : Memory → Nat → Byte → Memory
  | [], a, v => [(a, v)]
  | (k, w) :: rest, a, v => if a < k then (a, v) :: (k, w) :: rest else (k, w) :: Memory.insert rest a v

/-- One cell takes a byte; a cell that takes the unlisted byte loses its entry. -/
def Memory.write (m : Memory) (a : Nat) (v : Byte) : Memory :=
  if v = Config.unlistedByte then m.erase a else (m.erase a).insert a v

/-- The byte that holds a bit (log entry 13). -/
def bitByte (b : Bit) : Byte := if b then Config.oneByte else Config.unlistedByte

/-- The bit of one cell. -/
def Memory.readBit (m : Memory) (a : Nat) : Bit := decide (m.read a ≠ Config.unlistedByte)

/-- One cell takes a bit. -/
def Memory.writeBit (m : Memory) (a : Nat) (b : Bit) : Memory := m.write a (bitByte b)

/-- The canonical form of an array whose lowest index is `lo`: indices strictly rising from `lo` and below 8,
every listed byte the byte of bit 1, so none equal to what an unlisted cell reads as. -/
def Memory.wf : Nat → Memory → Bool
  | _, [] => true
  | lo, (k, v) :: rest =>
    decide (lo ≤ k) && decide (k < Config.cellCount) && decide (v = Config.oneByte) && Memory.wf (k + 1) rest

/-! ### Field updates -/

/-- `RR <- b`. -/
def State.setRR (s : State) (b : Bit) : State := { s with rr := b }

/-- `IEN <- v`; the register is written from here on. -/
def State.setIen (s : State) (v : Nibble) : State := { s with ien := v, ienWritten := true }

/-- `OEN <- v`; the register is written from here on. -/
def State.setOen (s : State) (v : Nibble) : State := { s with oen := v, oenWritten := true }

/-- `pc <- n`. -/
def State.setPc (s : State) (n : Nat) : State := { s with pc := n }

/-- `RAM[a] <- b`. -/
def State.setRam (s : State) (a : Nat) (b : Bit) : State := { s with ram := s.ram.writeBit a b }

/-- `IN[i] <- b`, the host's assignment. -/
def State.setIn (s : State) (i : Nat) (b : Bit) : State := { s with inp := s.inp.writeBit i b }

/-- `OUT[i] <- b`. -/
def State.setOut (s : State) (i : Nat) (b : Bit) : State := { s with out := s.out.writeBit i b }

/-- `fault <- f`. -/
def State.setFault (s : State) (f : Fault) : State := { s with fault := some f }

/-! ### The data space -/

/-- `MemRead(d, 1)` (spec 20_memory.md R29): `RAM[d[2:0]]` or `IN[d[2:0]]`; `RAM[0]` does not exist (R31). -/
def memRead (d : Nibble) (s : State) : Except Fault Bit :=
  match domainOf d with
  | .ram => if indexOf d = 0 then .error (.addrZero d) else .ok (s.ram.readBit (indexOf d))
  | .pins => .ok (s.inp.readBit (indexOf d))

/-- `MemWrite(d, 1, v)` (spec 20_memory.md R30): `RAM[d[2:0]]` or `OUT[d[2:0]]`; neither has a cell 0 (R31). -/
def memWrite (d : Nibble) (v : Bit) (s : State) : Except Fault State :=
  if indexOf d = 0 then .error (.addrZero d)
  else match domainOf d with
    | .ram => .ok (s.setRam (indexOf d) v)
    | .pins => .ok (s.setOut (indexOf d) v)

/-! ### Ends of an instruction -/

/-- Raising a fault: the mark is set and nothing else changes (spec 60_exceptions.md R106). Nothing is saved, no
handler runs and there is no return from it (R111, R112). Log entry 9. -/
def raise (f : Fault) (s : State) : StepOutcome := .next (s.setFault f)

/-- `pc <- pc + n`: 1 for the normal advance, 2 for a skip (spec 44_control.md R96). -/
def advance (n : Nat) (s : State) : StepOutcome := .next (s.setPc (s.pc + n))

/-- `pc <- target`, or `PcUnderflowFault(target)` for a negative target (spec 44_control.md R97). -/
def branchTo (target : Int) (s : State) : StepOutcome :=
  if target < 0 then raise (.pcUnderflow target) s else .next (s.setPc target.toNat)

/-- The common part of the seven load and logic instructions (spec 41_load_logic.md R82): one read, one new `RR`
computed from the old one and the selected bit, then `pc + 1`. -/
def loadLogic (alu : Bit → Bit → Bit) (d : Nibble) (s : State) : StepOutcome :=
  match memRead d s with
  | .error f => raise f s
  | .ok sel => advance 1 (s.setRR (alu s.rr sel))

/-- The common part of the two stores (spec 42_store.md R92): one write, then `pc + 1`. -/
def storeBit (d : Nibble) (v : Bit) (s : State) : StepOutcome :=
  match memWrite d v s with
  | .error f => raise f s
  | .ok s' => advance 1 s'

/-! ### The program store -/

/-- `L`, the length of the program in words (spec 00_scope.md R6). -/
def State.progLength (s : State) : Nat := s.prog.length

/-- `Fetch(pc)`: the word at `pc`, none at `pc >= L` (spec 20_memory.md R26). -/
def fetch (s : State) : Option Word := s.prog[s.pc]?

/-- The program with word `w` at index `n`; the store is filled up to `n` where it is shorter. Used only by
`State.withFetchWord`. -/
def placeWord (prog : List Word) (n : Nat) (w : Word) : List Word :=
  (prog ++ List.replicate (n + 1 - prog.length) Config.paddingWord).set n w

/-- The numeric label of a fault (spec 60_exceptions.md R105; the labels are the spec's own). -/
def Fault.label : Fault → Nat
  | .addrZero _ => 1
  | .pcUnderflow _ => 2

end Sys2Proof.Machine
end

