-- ==== Sys2Proof/Machine/Control.lean ====
section
/-! DEFINITION. The control transfers (spec 44_control.md). RTN is a skip, not a return (90_conflicts.md C7). -/

namespace Sys2Proof.Machine

/-- JMP: a relative jump from the following word, or `PcUnderflowFault` below word 0 (spec R97). -/
def execJmp (d : Nibble) (s : State) : StepOutcome := branchTo (branchTarget s.pc d) s

/-- RTN: the next word is skipped (spec R98). -/
def execRtn (_d : Nibble) (s : State) : StepOutcome := advance 2 s

/-- SKZ: the next word is skipped when `RR = 0` (spec R99). -/
def execSkz (_d : Nibble) (s : State) : StepOutcome := advance (if skipsOnZero s.rr then 2 else 1) s

end Sys2Proof.Machine
end

