-- ==== Sys2Proof/Machine/Enable.lean ====
section
/-! DEFINITION. The enable-register instructions (spec 43_enable.md): the operand is an immediate, copied
verbatim; no pin or RAM cell is read (90_conflicts.md C3). -/

namespace Sys2Proof.Machine

/-- IEN: `IEN <- d` (spec R93). -/
def execIen (d : Nibble) (s : State) : StepOutcome := advance 1 (s.setIen (immediateOf d))

/-- OEN: `OEN <- d` (spec R94). -/
def execOen (d : Nibble) (s : State) : StepOutcome := advance 1 (s.setOen (immediateOf d))

end Sys2Proof.Machine
end

