-- ==== Sys2Proof/Machine/LoadLogic.lean ====
section
/-! DEFINITION. The load and logic instructions (spec 41_load_logic.md): each is the common part R82 with its own
function of the old `RR` and the selected bit. `IEN` has no influence on the read (20_memory.md R43). -/

namespace Sys2Proof.Machine

/-- LD: `RR <- sel` (spec R83). -/
def execLd (d : Nibble) (s : State) : StepOutcome := loadLogic (fun _ sel => sel) d s

/-- LDC: `RR <- ~sel` (spec R84). -/
def execLdc (d : Nibble) (s : State) : StepOutcome := loadLogic (fun _ sel => bitNot sel) d s

/-- AND: `RR <- RR & sel` (spec R85). -/
def execAnd (d : Nibble) (s : State) : StepOutcome := loadLogic (fun rr sel => bitAnd rr sel) d s

/-- ANDC: `RR <- RR & ~sel` (spec R86). -/
def execAndc (d : Nibble) (s : State) : StepOutcome := loadLogic (fun rr sel => bitAnd rr (bitNot sel)) d s

/-- OR: `RR <- RR | sel` (spec R87). -/
def execOr (d : Nibble) (s : State) : StepOutcome := loadLogic (fun rr sel => bitOr rr sel) d s

/-- ORC: `RR <- RR | ~sel` (spec R88). -/
def execOrc (d : Nibble) (s : State) : StepOutcome := loadLogic (fun rr sel => bitOr rr (bitNot sel)) d s

/-- XNOR: `RR <- (RR == sel)` (spec R89). -/
def execXnor (d : Nibble) (s : State) : StepOutcome := loadLogic (fun rr sel => bitXnor rr sel) d s

end Sys2Proof.Machine
end

