-- ==== Sys2Proof/Machine/Nop.lean ====
section
/-! DEFINITION. The no-operation instructions NOP and NOPF (spec 40_nop.md). Their operand is ignored
(30_encoding.md R51; log entry 14). -/

namespace Sys2Proof.Machine

/-- NOP: `pc <- pc + 1` (spec R80). -/
def execNop (_d : Nibble) (s : State) : StepOutcome := advance 1 s

/-- NOPF: `pc <- pc + 1`, as NOP (spec R81, 30_encoding.md R54). -/
def execNopf (_d : Nibble) (s : State) : StepOutcome := advance 1 s

end Sys2Proof.Machine
end

