-- ==== Sys2Proof/Machine/Store.lean ====
section
/-! DEFINITION. The store instructions (spec 42_store.md). `OEN` has no influence on the write (20_memory.md R43). -/

namespace Sys2Proof.Machine

/-- STO: `MemWrite(d, 1, RR)` (spec R90). -/
def execSto (d : Nibble) (s : State) : StepOutcome := storeBit d s.rr s

/-- STOC: `MemWrite(d, 1, ~RR)`; `RR` itself is not complemented (spec R91). -/
def execStoc (d : Nibble) (s : State) : StepOutcome := storeBit d (bitNot s.rr) s

end Sys2Proof.Machine
end

