-- ==== Sys2Proof/Machine/Dispatch.lean ====
section
/-! DEFINITION. One arm per instruction (spec 30_encoding.md R55, 44_control.md R96). -/

namespace Sys2Proof.Machine

def exec (i : Instr) (s : State) : Host.Outcome State Fault Refusal :=
  match i with
  | .nop d => Sys2Proof.Machine.execNop d s
  | .ld d => Sys2Proof.Machine.execLd d s
  | .ldc d => Sys2Proof.Machine.execLdc d s
  | .and d => Sys2Proof.Machine.execAnd d s
  | .andc d => Sys2Proof.Machine.execAndc d s
  | .or d => Sys2Proof.Machine.execOr d s
  | .orc d => Sys2Proof.Machine.execOrc d s
  | .xnor d => Sys2Proof.Machine.execXnor d s
  | .sto d => Sys2Proof.Machine.execSto d s
  | .stoc d => Sys2Proof.Machine.execStoc d s
  | .ien d => Sys2Proof.Machine.execIen d s
  | .oen d => Sys2Proof.Machine.execOen d s
  | .jmp d => Sys2Proof.Machine.execJmp d s
  | .rtn d => Sys2Proof.Machine.execRtn d s
  | .skz d => Sys2Proof.Machine.execSkz d s
  | .nopf d => Sys2Proof.Machine.execNopf d s

end Sys2Proof.Machine
end

