-- ==== Sys2Proof/Machine/Step.lean ====
section
/-! DEFINITION. The step (spec 44_control.md R96): fetch, decode, execute. -/

namespace Sys2Proof.Machine

/-- One step. It is enabled when the mark is clear and `pc < L`; otherwise the request is refused and changes
nothing (spec 70_reset_and_hazards.md R123, R126). -/
def step (s : State) : Host.Outcome State Fault Refusal :=
  match s.fault with
  | some f => .refused (.machineFaulted f)
  | none =>
    match fetch s with
    | none => .refused .runEnded
    | some w => exec (decode w) s

/-- The state whose next step fetches the word with bits `w`: the word is put into the program at `pc`, the
program being extended up to `pc` where it is shorter, and a fault mark, under which no step happens, is
cleared. It stands for the load of such a program by the host (log entry 12). -/
def State.withFetchWord (s : State) (nbits w : Nat) : State :=
  { s with prog := placeWord s.prog s.pc (wordOfBits nbits w), fault := none }

end Sys2Proof.Machine
end

