-- ==== Sys2Proof/Machine/Text.lean ====
section
/-! DEFINITION. The textual form of a program (spec 30_encoding.md R56): two hexadecimal digits per word. -/

namespace Sys2Proof.Machine

/-- The value of a hexadecimal digit, either case (spec 30_encoding.md R56, R62). -/
def hexDigit (c : Char) : Option Nibble :=
  let n := c.toNat
  if 48 ≤ n ∧ n ≤ 57 then some (BitVec.ofNat 4 (n - 48))
  else if 65 ≤ n ∧ n ≤ 70 then some (BitVec.ofNat 4 (n - 55))
  else if 97 ≤ n ∧ n ≤ 102 then some (BitVec.ofNat 4 (n - 87))
  else none

/-- The upper-case digit of a nibble (spec 30_encoding.md R56, R63). -/
def digitChar (v : Nibble) : Char :=
  if v.toNat < 10 then Char.ofNat (48 + v.toNat) else Char.ofNat (55 + v.toNat)

/-- The two digits of a word, opcode first (spec 30_encoding.md R56, R63). -/
def wordText (w : Word) : Text := [digitChar (opcodeField w), digitChar (operandField w)]

/-- The text of a program, in program order, without separators (spec 30_encoding.md R56). -/
def programText : List Word → Text
  | [] => []
  | w :: rest => wordText w ++ programText rest

/-- The first character that is no hexadecimal digit. -/
def firstBadDigit : Text → Option Char
  | [] => none
  | c :: rest => if (hexDigit c).isNone then some c else firstBadDigit rest

/-- The words of a text of digit pairs; `none` for an odd length or a character that is no digit. -/
def pairWords : Text → Option (List Word)
  | [] => some []
  | [_] => none
  | a :: b :: rest =>
    match hexDigit a, hexDigit b, pairWords rest with
    | some op, some d, some ws => some (packWord op d :: ws)
    | _, _, _ => none

/-- The loader's conversion: it refuses an odd length and any other character than `0-9`, `A-F`, `a-f`, by name
(spec 30_encoding.md R56, D14; log entry 16). -/
def parseProgram (t : Text) : Except Refusal (List Word) :=
  match firstBadDigit t with
  | some c => .error (.badProgramDigit c)
  | none =>
    match pairWords t with
    | some ws => .ok ws
    | none => .error .oddProgramText

end Sys2Proof.Machine
end

