-- ==== Sys2Proof/Machine/Interface.lean ====
section
/-! DEFINITION. The host interface (spec 70_reset_and_hazards.md R120 to R129): load, step request, setInput,
readOutputs, and one transition function over the host's actions. -/

namespace Sys2Proof.Machine

/-! ### Load -/

/-- Loading a program is the reset (spec R120, R125): nothing survives but the new program. -/
def load (prog : List Word) : State := { State.reset with prog := prog }

/-- Loading a textual program; a refused text loads nothing (spec R125, 30_encoding.md R56). -/
def loadText (t : Text) : Except Refusal State := (parseProgram t).map load

/-! ### The step request -/

/-- The continue signal in a state: the mark is clear and `pc < L`. The spec gives it after a step (44_control.md
R100) and on a refused step request, where it is 0 (R126). That the other requests' replies carry this same function of
their state is the model's own choice (DESIGN CHOICE, log entry 23). -/
def State.continueSignal (s : State) : Bool := s.fault.isNone && decide (s.pc < s.progLength)

/-- The run has ended: `pc >= L` and no fault (spec R123). -/
def State.runEnded (s : State) : Bool := s.fault.isNone && decide (s.progLength ≤ s.pc)

/-- `prog_addr`, the word index fetched (spec R124, 20_memory.md R26). -/
def State.progAddr (s : State) : Nat := s.pc

/-- `prog_word`, the word the program store returns for `prog_addr` (spec R124, 20_memory.md R26). -/
def State.progWord (s : State) : Option Word := fetch s

/-! ### Input pins -/

/-- `setInput(state, pin, value)` (spec R127): allowed in every state, ended and faulted ones included. -/
def setInput (pin value : Nat) (s : State) : Except Refusal State :=
  if ¬ pinIndexOk pin then .error (.badPin pin)
  else if ¬ pinValueOk value then .error (.badPinValue value)
  else .ok (s.setIn pin (decide (value = 1)))

/-! ### Outputs -/

/-- What `readOutputs` returns (spec R128): the output pins, `RR`, `IEN`, `OEN` and RAM; an enable register not
yet written is `none`. -/
structure Snapshot where
  out : List (Nat × Bit)
  rr : Bit
  ien : Option Nibble
  oen : Option Nibble
  ram : List (Nat × Bit)
deriving DecidableEq, Repr

/-- The cells 1 to 7 of an array, with their indices. -/
def storedCells (m : Memory) : List (Nat × Bit) := [1, 2, 3, 4, 5, 6, 7].map fun a => (a, m.readBit a)

/-- `IEN` as the dump shows it: unwritten, or its value (spec R128, 10_state.md R22). -/
def State.dumpIen (s : State) : Option Nibble := if s.ienWritten then some s.ien else none

/-- `OEN` as the dump shows it: unwritten, or its value (spec R128, 10_state.md R22). -/
def State.dumpOen (s : State) : Option Nibble := if s.oenWritten then some s.oen else none

/-- `readOutputs(state)` (spec R128): a pure function of the state. -/
def readOutputs (s : State) : Snapshot where
  out := storedCells s.out
  rr := s.rr
  ien := s.dumpIen
  oen := s.dumpOen
  ram := storedCells s.ram

/-- The textual convention pin, colon, value for one output assertion (spec R129); the pin is one decimal
digit. -/
def outputText (assertion : Nat × Bit) : Text :=
  [Char.ofNat (48 + assertion.1), ':', if assertion.2 then '1' else '0']

/-! ### The host's actions -/

/-- What the host may do between steps (spec R124 and the table after R129). -/
inductive HostAction where
  | load (prog : List Word)
  | loadText (text : Text)
  | step
  | setInput (pin value : Nat)
  | readOutputs
deriving DecidableEq, Repr

/-- What the host gets back: the state, the continue signal (the spec's for a step request, the model's own choice for
every other one, log entry 23), the snapshot it asked for, and why the request was refused, if it was. -/
structure Reply where
  state : State
  goesOn : Bool
  snapshot : Option Snapshot
  refusal : Option Refusal
deriving DecidableEq, Repr

/-- A request that was carried out. For a step the continue signal is the spec's (44_control.md R100); for load,
loadText, setInput and readOutputs the spec gives none, and its value here is a DESIGN CHOICE (log entry 23). -/
def accepted (s : State) : Reply :=
  { state := s, goesOn := s.continueSignal, snapshot := none, refusal := none }

/-- A request that was refused: the state is unchanged (spec R126, R127, 30_encoding.md R56). For a refused step the
continue signal is the spec's 0 (R126); for a refused loadText or setInput the spec gives none, and its value here is a
DESIGN CHOICE (log entry 23). -/
def declined (s : State) (r : Refusal) : Reply :=
  { state := s, goesOn := s.continueSignal, snapshot := none, refusal := some r }

/-- A request whose result is a state or a refusal. -/
def replyOf (s : State) : Except Refusal State → Reply
  | .ok s' => accepted s'
  | .error r => declined s r

/-- The step request (spec R126). No step of this machine answers `Outcome.fault`; that arm sets the mark, as
spec 60_exceptions.md R106 says of a fault. -/
def requestStep (s : State) : Reply :=
  match step s with
  | .next s' => accepted s'
  | .fault f => accepted (s.setFault f)
  | .refused r => declined s r

/-- One action of the host (spec R124). -/
def hostAct (a : HostAction) (s : State) : Reply :=
  match a with
  | .load prog => accepted (load prog)
  | .loadText t => replyOf s (loadText t)
  | .step => requestStep s
  | .setInput pin value => replyOf s (setInput pin value s)
  | .readOutputs => { accepted s with snapshot := some (readOutputs s) }

/-- A run under a finite list of host actions; the list is the host's step budget (spec 44_control.md R103). -/
def hostRun : List HostAction → State → State
  | [], s => s
  | a :: rest, s => hostRun rest (hostAct a s).state

end Sys2Proof.Machine
end

