-- ==== Sys2Proof/Machine/Macros.lean ====
section
/-! DEFINITION. The assembler's mnemonics and the macro expansion engine (spec 30_encoding.md R59, R60, R65 to
R71). Toolchain, not hardware (00_scope.md R3). -/

namespace Sys2Proof.Machine

/-- The basic mnemonics and their opcodes (spec R52, R59): exact, lower case (D16). -/
def basicMnemonics : List (Text × Nibble) :=
  [(['n', 'o', 'p'], 0x0#4), (['l', 'd'], 0x1#4), (['l', 'd', 'c'], 0x2#4), (['a', 'n', 'd'], 0x3#4),
   (['a', 'n', 'd', 'c'], 0x4#4), (['o', 'r'], 0x5#4), (['o', 'r', 'c'], 0x6#4),
   (['x', 'n', 'o', 'r'], 0x7#4), (['s', 't', 'o'], 0x8#4), (['s', 't', 'o', 'c'], 0x9#4),
   (['i', 'e', 'n'], 0xA#4), (['o', 'e', 'n'], 0xB#4), (['j', 'm', 'p'], 0xC#4),
   (['r', 'e', 't'], 0xD#4), (['s', 'k', 'z'], 0xE#4)]

/-- The opcode of a basic mnemonic. -/
def basicOpcode (name : Text) : Option Nibble := basicMnemonics.lookup name

/-- The default operand of a mnemonic written without one: 1 for `skz`, `nop` and `ret`, none for the others
(spec R60, R69). -/
def bareDefault (name : Text) : Option Nibble :=
  if name ∈ [['s', 'k', 'z'], ['n', 'o', 'p'], ['r', 'e', 't']] then some 0x1#4 else none

/-- A token that is exactly one hexadecimal digit (spec R62). -/
def digitToken : Text → Option Nibble
  | [c] => hexDigit c
  | _ => none

/-- A macro specifier against the actual arguments, which are digit values (spec R66): a literal digit, or the k-th
actual for `-k` with `1 <= k <= n` (spec R67, R68, D21). -/
def resolveSpec (z : Int) (actuals : List Nibble) : Except AsmError Nibble :=
  if 0 ≤ z then
    if z ≤ 15 then .ok (BitVec.ofNat 4 z.toNat) else .error .badOperand
  else
    match actuals[(-z).toNat - 1]? with
    | none => .error .tooFewArguments
    | some v => .ok v

/-- All specifiers of a step, in order (spec R66). -/
def resolveSpecs : List Int → List Nibble → Except AsmError (List Nibble)
  | [], _ => .ok []
  | z :: rest, actuals =>
    match resolveSpec z actuals with
    | .error e => .error e
    | .ok v =>
      match resolveSpecs rest actuals with
      | .error e => .error e
      | .ok vs => .ok (v :: vs)

/-- A step whose target is a basic mnemonic (spec R66, R69): one specifier at most; none means the default
operand, which only `skz`, `nop` and `ret` have (D18). -/
def expandBasicStep (op : Nibble) (m : MacroStep) (actuals : List Nibble) : Except AsmError (List Pair) :=
  match m.specs with
  | [] =>
    match bareDefault m.target with
    | some v => .ok [(op, v)]
    | none => .error .tooFewArguments
  | [z] =>
    match resolveSpec z actuals with
    | .ok v => .ok [(op, v)]
    | .error e => .error e
  | _ => .error .tooManyArguments

/-- One step of an expansion (spec R66): a basic mnemonic first, then a macro (D22), else
`UnknownMacroTarget`. `child` expands the macros that steps name. -/
def expandStep (table : MacroTable) (child : Text → List Nibble → Except AsmError (List Pair))
    (m : MacroStep) (actuals : List Nibble) : Except AsmError (List Pair) :=
  match basicOpcode m.target with
  | some op => expandBasicStep op m actuals
  | none =>
    match table.lookup m.target with
    | none => .error .unknownMacroTarget
    | some _ =>
      match resolveSpecs m.specs actuals with
      | .error e => .error e
      | .ok childActuals => child m.target childActuals

/-- The steps of one macro in order, their outputs spliced in place (spec R66). -/
def expandSteps (table : MacroTable) (child : Text → List Nibble → Except AsmError (List Pair)) :
    List MacroStep → List Nibble → Except AsmError (List Pair)
  | [], _ => .ok []
  | m :: rest, actuals =>
    match expandStep table child m actuals with
    | .error e => .error e
    | .ok pairs =>
      match expandSteps table child rest actuals with
      | .error e => .error e
      | .ok more => .ok (pairs ++ more)

/-- Expansion with at most `depth` macros nested in each other, the invoked one counted; deeper nesting is
`MacroDepthExceeded` (spec R66, R70, D19; log entry 18). -/
def expandMacro (table : MacroTable) : Nat → Text → List Nibble → Except AsmError (List Pair)
  | 0, _, _ => .error .macroDepthExceeded
  | depth + 1, name, actuals =>
    match table.lookup name with
    | none => .error .unknownMacroTarget
    | some steps => expandSteps table (expandMacro table depth) steps actuals

/-- The expansion engine as the assembler calls it: it refuses a macro table with a literal above 15 as a whole, at
every invocation, with `BadOperand` (spec R68, D17; log entry 19), and else expands. -/
def invokeMacro (cfg : AsmConfig) (name : Text) (actuals : List Nibble) : Except AsmError (List Pair) :=
  if macroTableOk cfg.macros then expandMacro cfg.macros cfg.depthMax name actuals else .error .badOperand

end Sys2Proof.Machine
end

