-- ==== Sys2Proof/Machine/Assembler.lean ====
section
/-! DEFINITION. The assembler (spec 30_encoding.md R58 to R64, R72 to R75). Toolchain, not hardware (00_scope.md
R3). -/

namespace Sys2Proof.Machine

/-- Everything before the first `;` (spec R58). -/
def stripComment : Text → Text
  | [] => []
  | c :: rest => if c = ';' then [] else c :: stripComment rest

/-- The tokens of a line: its longest runs of characters that are no white space (spec R58; log entry 16). The
first argument is the run being read. -/
def tokensFrom : Text → Text → List Text
  | run, [] => if run.isEmpty then [] else [run]
  | run, c :: rest =>
    if c.isWhitespace then
      if run.isEmpty then tokensFrom [] rest else run :: tokensFrom [] rest
    else tokensFrom (run ++ [c]) rest

/-- The tokens of a line. -/
def tokens (line : Text) : List Text := tokensFrom [] line

/-- The operand of a basic mnemonic: the token `!rr` is 0, any other token is one hexadecimal digit (spec R62). -/
def resolveOperand (token : Text) : Except AsmError Nibble :=
  if token = ['!', 'r', 'r'] then .ok 0x0#4
  else match digitToken token with
    | some v => .ok v
    | none => .error .badOperand

/-- A line whose mnemonic is basic (spec R60 to R63). -/
def assembleBasic (op : Nibble) (name : Text) : List Text → Except AsmError (List Pair)
  | [] =>
    match bareDefault name with
    | some v => .ok [(op, v)]
    | none => .error .tooFewArguments
  | [token] =>
    match resolveOperand token with
    | .ok v => .ok [(op, v)]
    | .error e => .error e
  | _ => .error .tooManyArguments

/-- A line whose mnemonic is a macro name: exactly one actual argument (spec R61, 90_conflicts.md C8), one hexadecimal
digit, referred to or not; any other token, `!rr` included, is `BadOperand` (spec R66, R67, D17; log entry 17). -/
def assembleInvocation (cfg : AsmConfig) (name : Text) : List Text → Except AsmError (List Pair)
  | [] => .error .tooFewArguments
  | [token] =>
    match digitToken token with
    | some v => invokeMacro cfg name [v]
    | none => .error .badOperand
  | _ => .error .tooManyArguments

/-- One line: the mnemonic is recognised first, basic before macro (spec R58, R61, R63, D17, D22). -/
def assembleLine (cfg : AsmConfig) (line : Text) : Except AsmError (List Pair) :=
  match tokens (stripComment line) with
  | [] => .ok []
  | name :: args =>
    match basicOpcode name with
    | some op => assembleBasic op name args
    | none =>
      match cfg.macros.lookup name with
      | some _ => assembleInvocation cfg name args
      | none => .error .unknownInstruction

/-- The lines of a text, split at line feeds (spec R58; log entry 16). The first argument is the line being
read. -/
def linesFrom : Text → Text → List Text
  | line, [] => [line]
  | line, c :: rest => if c = '\n' then line :: linesFrom [] rest else linesFrom (line ++ [c]) rest

/-- The lines of a text. -/
def sourceLines (t : Text) : List Text := linesFrom [] t

/-- The lines from position `n` on; the first failing line stops the assembly with its 1-based position (spec
R64, R73). -/
def assembleLines (cfg : AsmConfig) : Nat → List Text → Except AsmFailure (List Pair)
  | _, [] => .ok []
  | n, line :: rest =>
    match assembleLine cfg line with
    | .error e => .error (.atLine n e)
    | .ok pairs =>
      match assembleLines cfg (n + 1) rest with
      | .error e => .error e
      | .ok more => .ok (pairs ++ more)

/-- The word of an emitted pair (spec R63). -/
def pairWord (p : Pair) : Word := packWord p.1 p.2

/-- `assemble(text)` as words (spec R64, 70_reset_and_hazards.md R124). -/
def assembleWords (cfg : AsmConfig) (t : Text) : Except AsmFailure (List Word) :=
  (assembleLines cfg 1 (sourceLines t)).map fun pairs => pairs.map pairWord

/-- `assembleProgram(text)` as the serialized word stream (spec R64). -/
def assembleProgram (cfg : AsmConfig) (t : Text) : Except AsmFailure Text :=
  (assembleWords cfg t).map programText

/-- Assembling a text and loading its words. -/
def assembleAndLoad (cfg : AsmConfig) (t : Text) : Except AsmFailure State :=
  (assembleWords cfg t).map load

end Sys2Proof.Machine
end

