-- ==== Sys2Proof/Machine/ControlTable.lean ====
section
/-! DEFINITION. The decoder's outputs as control signals (spec 30_encoding.md R57), and a datapath driven by
them. "Where it and an instruction rule disagree the instruction rule governs": `exec` does not use this file. -/

namespace Sys2Proof.Machine

/-- The function that combines `RR` with `x` (spec R57, last paragraph). -/
inductive AluFunction where
  | passX
  | andX
  | orX
  | xnorX
deriving DecidableEq, Repr

/-- The value of a data write: `RR` or `~RR`. -/
inductive StoreValue where
  | rr
  | notRR
deriving DecidableEq, Repr

/-- The register written from the operand. -/
inductive EnableRegister where
  | ien
  | oen
deriving DecidableEq, Repr

/-- How the next `pc` is formed. -/
inductive NextPc where
  | following
  | branch
  | skip
  | skipIfZero
deriving DecidableEq, Repr

/-- One row of the control table: the columns "data read" with "x =" (`some true` for `~sel`), the ALU result,
the data write, the register write, the next `pc`. -/
structure ControlSignals where
  readComplement : Option Bool := none
  alu : AluFunction := .passX
  store : Option StoreValue := none
  register : Option EnableRegister := none
  nextPc : NextPc := .following
deriving DecidableEq, Repr

/-- The sixteen rows of spec R57. -/
def controlSignals : Instr → ControlSignals
  | .nop _ => {}
  | .ld _ => { readComplement := some false, alu := .passX }
  | .ldc _ => { readComplement := some true, alu := .passX }
  | .and _ => { readComplement := some false, alu := .andX }
  | .andc _ => { readComplement := some true, alu := .andX }
  | .or _ => { readComplement := some false, alu := .orX }
  | .orc _ => { readComplement := some true, alu := .orX }
  | .xnor _ => { readComplement := some false, alu := .xnorX }
  | .sto _ => { store := some .rr }
  | .stoc _ => { store := some .notRR }
  | .ien _ => { register := some .ien }
  | .oen _ => { register := some .oen }
  | .jmp _ => { nextPc := .branch }
  | .rtn _ => { nextPc := .skip }
  | .skz _ => { nextPc := .skipIfZero }
  | .nopf _ => {}

/-- The ALU of spec R57 on `(RR, x)`. -/
def AluFunction.result : AluFunction → Bit → Bit → Bit
  | .passX, _, x => x
  | .andX, rr, x => rr && x
  | .orX, rr, x => rr || x
  | .xnorX, rr, x => !(rr ^^ x)

/-- The read column and the ALU column: `RR` is written exactly when the data space is read. -/
def datapathRead (c : ControlSignals) (d : Nibble) (s : State) : Except Fault State :=
  match c.readComplement with
  | none => .ok s
  | some complement =>
    match memRead d s with
    | .error f => .error f
    | .ok sel => .ok (s.setRR (c.alu.result s.rr (sel ^^ complement)))

/-- The data-write column. -/
def datapathStore (c : ControlSignals) (d : Nibble) (s : State) : Except Fault State :=
  match c.store with
  | none => .ok s
  | some .rr => memWrite d s.rr s
  | some .notRR => memWrite d (bitNot s.rr) s

/-- The register-write column. -/
def datapathRegister (c : ControlSignals) (d : Nibble) (s : State) : State :=
  match c.register with
  | none => s
  | some .ien => s.setIen d
  | some .oen => s.setOen d

/-- The next-pc column. -/
def datapathNextPc (c : ControlSignals) (d : Nibble) (s : State) : StepOutcome :=
  match c.nextPc with
  | .following => .next (s.setPc (s.pc + 1))
  | .skip => .next (s.setPc (s.pc + 2))
  | .skipIfZero => .next (s.setPc (if s.rr = false then s.pc + 2 else s.pc + 1))
  | .branch => branchTo (branchTarget s.pc d) s

/-- The datapath driven by one row of the table; a fault leaves the state as it was but for the mark. -/
def datapath (c : ControlSignals) (d : Nibble) (s : State) : StepOutcome :=
  match datapathRead c d s with
  | .error f => raise f s
  | .ok s₁ =>
    match datapathStore c d s₁ with
    | .error f => raise f s
    | .ok s₂ => datapathNextPc c d (datapathRegister c d s₂)

end Sys2Proof.Machine
end

