-- ==== Sys2Proof/Safety.lean ====
section
/-! DEFINITION. What counts as a safe run, in the terms the statements use: finished runs, the address-0 gap as a
set of words, legal fault marks, and the invariant of the machine; and well-referenced macros. -/

namespace Sys2Proof.Machine

/-- A run that ended without a fault, the only final states (spec 70_reset_and_hazards.md R123, 60_exceptions.md
R106). -/
def State.finished (s : State) : Prop := s.fault = none ∧ s.prog.length ≤ s.pc

/-- The eleven words that raise `AddrZeroFault` when executed (spec 60_exceptions.md R107, 30_encoding.md R53). -/
def gapWords : List Word :=
  [0x18#8, 0x28#8, 0x38#8, 0x48#8, 0x58#8, 0x68#8, 0x78#8, 0x88#8, 0x98#8, 0x80#8, 0x90#8]

/-- A word whose execution at index `pc` is a JMP below word 0 (spec 60_exceptions.md R108): the opcode is 0xC, the
operand `o` is below 8 and `pc + 1 < 4*(o+1)`. -/
def underflowsAt (pc : Nat) (w : Word) : Prop :=
  w.toNat / 16 = 0xC ∧ w.toNat % 16 < 8 ∧ pc + 1 < 4 * (w.toNat % 16 + 1)

/-- What a fault mark says of the word `w` at `pc` (spec 60_exceptions.md R105): the recorded operand, or the
recorded negative target `pc + 1 - 4*(o+1)`. -/
def Fault.recordedAt (pc : Nat) (w : Word) : Fault → Prop
  | .addrZero d => w ∈ gapWords ∧ d.toNat = w.toNat % 16
  | .pcUnderflow target =>
    underflowsAt pc w ∧ target = (pc : Int) + 1 - 4 * ((w.toNat % 16 : Nat) + 1)

/-- The read view of the data space at an address other than `0x8` (spec 20_memory.md R28): `IN[0]` to `IN[7]` at 0x0
to 0x7, `RAM[1]` to `RAM[7]` at 0x9 to 0xF. -/
def selectedBit (d : Nibble) (s : State) : Bit :=
  if d.toNat < 8 then s.inp.readBit d.toNat else s.ram.readBit (d.toNat - 8)

/-- What every frame statement says of the state outside the three arrays: the fields an instruction does not name
are unchanged, whatever it does to `pc`. -/
structure FrameOutsideData (s t : State) : Prop where
  ien : t.ien = s.ien
  ienWritten : t.ienWritten = s.ienWritten
  oen : t.oen = s.oen
  oenWritten : t.oenWritten = s.oenWritten
  prog : t.prog = s.prog

/-- Every cell of RAM, of the input pins and of the output pins reads as before. -/
structure DataUnchanged (s t : State) : Prop where
  ram : ∀ a, t.ram.read a = s.ram.read a
  inp : ∀ a, t.inp.read a = s.inp.read a
  out : ∀ a, t.out.read a = s.out.read a

/-- The invariant of the machine: the three arrays are canonical (so no cell outside the spec's ranges
holds a 1, 10_state.md R16 to R18), `pc` is at most `L + 32` (R15), and a fault mark names the fault of the word
at `pc` (60_exceptions.md R105, R106). -/
structure State.Inv (s : State) : Prop where
  ram_wf : s.ram.wf Config.firstStoredCell = true
  inp_wf : s.inp.wf Config.firstInputPin = true
  out_wf : s.out.wf Config.firstStoredCell = true
  pc_bound : s.pc ≤ s.prog.length + 32
  fault_recorded : ∀ f, s.fault = some f → ∃ w, s.prog[s.pc]? = some w ∧ f.recordedAt s.pc w

/-- A specifier that resolves against `n` actual arguments: a literal 0 to 15, or `-k` with `1 <= k <= n` (spec
30_encoding.md R67, R68). -/
def specInRange (n : Nat) (z : Int) : Prop := (0 ≤ z ∧ z ≤ 15) ∨ (z < 0 ∧ -z ≤ n)

/-- A step of a macro with `n` actual arguments that no error of spec 30_encoding.md R66 to R69 meets: its specifiers
resolve, and its target is a basic mnemonic with one specifier (or none, where it has a default operand) or a macro of
the table that is given as many arguments as `arity` says it needs. -/
def MacroStep.wellReferenced (table : MacroTable) (arity : Text → Nat) (n : Nat) (m : MacroStep) : Prop :=
  (∀ z ∈ m.specs, specInRange n z) ∧
    ((basicOpcode m.target ≠ none ∧ (m.specs.length = 1 ∨ m.specs = [] ∧ bareDefault m.target ≠ none)) ∨
     (basicOpcode m.target = none ∧ table.lookup m.target ≠ none ∧ arity m.target ≤ m.specs.length))

end Sys2Proof.Machine
end

