-- ==== Sys2Proof/Certificates/Slice0/Obligations.lean ====
section
/-! DEFINITION. The statements for the provers. Each docstring names the rules it formalises; where a clause is a
decision the spec marks as its own (D<n> of 92_eei_decisions.md), the docstring says so. -/

open Sys2Proof Sys2Proof.Machine

/-! ### Encoding and the step -/

/-- R96: an enabled step executes the instruction that the word at `pc` decodes to, in the state as it is; the step
adds nothing around it. -/
def Obligations.StepRunsDecodedInstruction : Prop :=
  ∀ (s : State) (w : Word) (i : Instr),
    s.fault = none → s.prog[s.pc]? = some w → decode w = i → i.wellFormed = true → step s = exec i s

/-- Words written out from the encodings of the opcode table, one per row (95_test_vectors.md V1 to V13 and the
worked words of R83 to R99), decode to the instructions they stand for. The places of the nibbles in all of them are the
spec's decision D1 (log entry 1), and the opcode numbers of ten of them its decision D2 (log entry 2). -/
def Obligations.WrittenWordsDecode : Prop :=
  decode 0b00000000#8 = .nop 0x0#4 ∧ decode 0b00010001#8 = .ld 0x1#4 ∧ decode 0b00101011#8 = .ldc 0xB#4 ∧
  decode 0b00110000#8 = .and 0x0#4 ∧ decode 0b01000010#8 = .andc 0x2#4 ∧ decode 0b01011001#8 = .or 0x9#4 ∧
  decode 0b01100111#8 = .orc 0x7#4 ∧ decode 0b01111111#8 = .xnor 0xF#4 ∧ decode 0b10000111#8 = .sto 0x7#4 ∧
  decode 0b10011100#8 = .stoc 0xC#4 ∧ decode 0b10100101#8 = .ien 0x5#4 ∧ decode 0b10111110#8 = .oen 0xE#4 ∧
  decode 0b11000011#8 = .jmp 0x3#4 ∧ decode 0b11010001#8 = .rtn 0x1#4 ∧ decode 0b11100001#8 = .skz 0x1#4 ∧
  decode 0b11111111#8 = .nopf 0xF#4

/-- R52, R46: the opcode map, row by row, with the operand in the low nibble. The places of the nibbles and ten of the
numbers are the spec's decisions D1 and D2 (log entries 1 and 2). -/
def Obligations.OpcodeMapDecodes : Prop :=
  ∀ d : Nibble,
    decode (0x0#4 ++ d) = .nop d ∧ decode (0x1#4 ++ d) = .ld d ∧ decode (0x2#4 ++ d) = .ldc d ∧
    decode (0x3#4 ++ d) = .and d ∧ decode (0x4#4 ++ d) = .andc d ∧ decode (0x5#4 ++ d) = .or d ∧
    decode (0x6#4 ++ d) = .orc d ∧ decode (0x7#4 ++ d) = .xnor d ∧ decode (0x8#4 ++ d) = .sto d ∧
    decode (0x9#4 ++ d) = .stoc d ∧ decode (0xA#4 ++ d) = .ien d ∧ decode (0xB#4 ++ d) = .oen d ∧
    decode (0xC#4 ++ d) = .jmp d ∧ decode (0xD#4 ++ d) = .rtn d ∧ decode (0xE#4 ++ d) = .skz d ∧
    decode (0xF#4 ++ d) = .nopf d

/-- R46, R52, R55: decoding the word of an instruction gives the instruction back, with its operand nibble at every
value. -/
def Obligations.DecodeEncodeAgree : Prop :=
  ∀ i : Instr, i.wellFormed = true → decode (encode i) = i

/-- R53: the decoder is total: every word decodes to an instruction whose word it is. -/
def Obligations.EveryWordIsAnInstructionsWord : Prop :=
  ∀ w : Word, (decode w).wellFormed = true ∧ encode (decode w) = w

/-- The interface the host uses to place one instruction (log entry 12): the next step runs the instruction of the
placed word. -/
def Obligations.PlacedWordRunsNext : Prop :=
  ∀ (s : State) (w : Nat), w < 256 →
    (s.withFetchWord 8 w).prog[(s.withFetchWord 8 w).pc]? = some (BitVec.ofNat 8 w) ∧
    step (s.withFetchWord 8 w) = exec (decode (BitVec.ofNat 8 w)) (s.withFetchWord 8 w)

/-! ### No-operation instructions -/

/-- R80: NOP moves `pc` to the next word and changes nothing else; its encoding; what the assembler emits for it. That
this holds for every operand is the spec's decision D11 (log entry 14), and that the run has ended at the last word is
its decision D6 (log entry 8). -/
def Obligations.NopOnlyAdvances : Prop :=
  ∀ (d : Nibble) (s : State),
    encode (.nop d) = 0x0#4 ++ d ∧
    exec (.nop d) s = .next { s with pc := s.pc + 1 } ∧
    (s.fault = none → s.pc + 1 = s.prog.length → State.finished { s with pc := s.pc + 1 }) ∧
    (∀ cfg, assembleLine cfg "nop".toList = .ok [(0x0#4, 0x1#4)]) ∧
    (∀ cfg c, hexDigit c = some d → assembleLine cfg ("nop ".toList ++ [c]) = .ok [(0x0#4, d)])

/-- R81: NOPF does what NOP does; its encoding; no mnemonic reaches it. That any operand of either does the same is the
spec's decision D11 (log entry 14), and that the run has ended at the last word is its decision D6 (log entry 8). -/
def Obligations.NopfOnlyAdvances : Prop :=
  ∀ (d e : Nibble) (s : State),
    encode (.nopf d) = 0xF#4 ++ d ∧
    exec (.nopf d) s = .next { s with pc := s.pc + 1 } ∧
    exec (.nopf d) s = exec (.nop e) s ∧
    (s.fault = none → s.pc + 1 = s.prog.length → State.finished { s with pc := s.pc + 1 }) ∧
    (∀ name, basicOpcode name ≠ some 0xF#4)

/-- R54: opcode 15 executes exactly as opcode 0, no mnemonic reaches it, and the assembler never emits it, whatever the
source text and the macro table. -/
def Obligations.OpcodeFifteenIsNopAndNeverAssembled : Prop :=
  (∀ (d : Nibble) (s : State), exec (decode (0xF#4 ++ d)) s = exec (decode (0x0#4 ++ d)) s) ∧
  (∀ name, basicOpcode name ≠ some 0xF#4) ∧
  (∀ cfg text words, assembleWords cfg text = .ok words → ∀ w ∈ words, opcodeField w ≠ 0xF#4)

/-! ### Load and logic -/

/-- R83: LD gives `RR` the selected value; the fault at `d = 0x8` is LoadLogicFaultsOnRamZero. -/
def Obligations.LdLoadsSelectedBit : Prop :=
  ∀ (d : Nibble) (s : State),
    encode (.ld d) = 0x1#4 ++ d ∧ basicOpcode "ld".toList = some 0x1#4 ∧
    (d ≠ 0x8#4 → exec (.ld d) s = .next { s with rr := selectedBit d s, pc := s.pc + 1 })

/-- R84: LDC gives `RR` the complement of the selected value; the fault at `d = 0x8` is LoadLogicFaultsOnRamZero. -/
def Obligations.LdcLoadsComplement : Prop :=
  ∀ (d : Nibble) (s : State),
    encode (.ldc d) = 0x2#4 ++ d ∧ basicOpcode "ldc".toList = some 0x2#4 ∧
    (d ≠ 0x8#4 → exec (.ldc d) s = .next { s with rr := !selectedBit d s, pc := s.pc + 1 })

/-- R85: AND gives `RR` the conjunction of `RR` and the selected value; the fault at `d = 0x8` is
LoadLogicFaultsOnRamZero. -/
def Obligations.AndConjoinsSelectedBit : Prop :=
  ∀ (d : Nibble) (s : State),
    encode (.and d) = 0x3#4 ++ d ∧ basicOpcode "and".toList = some 0x3#4 ∧
    (d ≠ 0x8#4 → exec (.and d) s = .next { s with rr := s.rr && selectedBit d s, pc := s.pc + 1 })

/-- R86: ANDC gives `RR` the conjunction of `RR` and the complement of the selected value. The opcode number is the
spec's decision D2; the fault at `d = 0x8` is LoadLogicFaultsOnRamZero. -/
def Obligations.AndcConjoinsComplement : Prop :=
  ∀ (d : Nibble) (s : State),
    encode (.andc d) = 0x4#4 ++ d ∧ basicOpcode "andc".toList = some 0x4#4 ∧
    (d ≠ 0x8#4 → exec (.andc d) s = .next { s with rr := s.rr && !selectedBit d s, pc := s.pc + 1 })

/-- R87: OR gives `RR` the disjunction of `RR` and the selected value. The opcode number is the spec's decision D2; the
fault at `d = 0x8` is LoadLogicFaultsOnRamZero. -/
def Obligations.OrDisjoinsSelectedBit : Prop :=
  ∀ (d : Nibble) (s : State),
    encode (.or d) = 0x5#4 ++ d ∧ basicOpcode "or".toList = some 0x5#4 ∧
    (d ≠ 0x8#4 → exec (.or d) s = .next { s with rr := s.rr || selectedBit d s, pc := s.pc + 1 })

/-- R88: ORC gives `RR` the disjunction of `RR` and the complement of the selected value. The opcode number is the
spec's decision D2; the fault at `d = 0x8` is LoadLogicFaultsOnRamZero. -/
def Obligations.OrcDisjoinsComplement : Prop :=
  ∀ (d : Nibble) (s : State),
    encode (.orc d) = 0x6#4 ++ d ∧ basicOpcode "orc".toList = some 0x6#4 ∧
    (d ≠ 0x8#4 → exec (.orc d) s = .next { s with rr := s.rr || !selectedBit d s, pc := s.pc + 1 })

/-- R89: XNOR gives `RR` 1 exactly when it equals the selected value; the fault at `d = 0x8` is
LoadLogicFaultsOnRamZero. -/
def Obligations.XnorComparesSelectedBit : Prop :=
  ∀ (d : Nibble) (s : State),
    encode (.xnor d) = 0x7#4 ++ d ∧ basicOpcode "xnor".toList = some 0x7#4 ∧
    (d ≠ 0x8#4 → exec (.xnor d) s = .next { s with rr := decide (s.rr = selectedBit d s), pc := s.pc + 1 })

/-- The spec's decision D3 (R31, R82; log entry 5) with D10 (log entry 9): the seven load and logic instructions raise
`AddrZeroFault(0x8)` at `d = 0x8`, changing nothing but the mark, and leave the mark alone at every other `d`. -/
def Obligations.LoadLogicFaultsOnRamZero : Prop :=
  ∀ (s : State),
    ∀ mk ∈ [Instr.ld, Instr.ldc, Instr.and, Instr.andc, Instr.or, Instr.orc, Instr.xnor],
      exec (mk 0x8#4) s = .next { s with fault := some (.addrZero 0x8#4) } ∧
      ∀ d, d ≠ 0x8#4 → ∃ t, exec (mk d) s = .next t ∧ t.fault = s.fault

/-- R82, R34, R10: the frame of the seven load and logic instructions, fault or not: only `RR`, `pc` and the mark may
change; every cell reads as before. That the input pins, `IN[0]` included, stay is the spec's decision D7 (R44; log
entry 10); the fault and its having no other effect are its decisions D3 and D10 (log entries 5 and 9). -/
def Obligations.LoadLogicFrame : Prop :=
  ∀ (d : Nibble) (s t : State),
    ∀ mk ∈ [Instr.ld, Instr.ldc, Instr.and, Instr.andc, Instr.or, Instr.orc, Instr.xnor],
      exec (mk d) s = .next t → FrameOutsideData s t ∧ DataUnchanged s t

/-! ### Stores -/

/-- R90: STO writes `RR` into the selected RAM cell or output pin and keeps `RR`. The opcode number is the spec's
decision D2; the faults at `d = 0x0` and `d = 0x8` are StoresFaultOnIndexZero. -/
def Obligations.StoWritesAccumulator : Prop :=
  ∀ (d : Nibble) (s : State),
    encode (.sto d) = 0x8#4 ++ d ∧ basicOpcode "sto".toList = some 0x8#4 ∧
    (8 < d.toNat → exec (.sto d) s = .next { s with ram := s.ram.writeBit (d.toNat - 8) s.rr, pc := s.pc + 1 }) ∧
    (0 < d.toNat ∧ d.toNat < 8 →
      exec (.sto d) s = .next { s with out := s.out.writeBit d.toNat s.rr, pc := s.pc + 1 })

/-- R91: STOC writes the complement of `RR` into the selected RAM cell or output pin and keeps `RR`. The opcode number
is the spec's decision D2; the faults at `d = 0x0` and `d = 0x8` are StoresFaultOnIndexZero. -/
def Obligations.StocWritesComplement : Prop :=
  ∀ (d : Nibble) (s : State),
    encode (.stoc d) = 0x9#4 ++ d ∧ basicOpcode "stoc".toList = some 0x9#4 ∧
    (8 < d.toNat → exec (.stoc d) s = .next { s with ram := s.ram.writeBit (d.toNat - 8) !s.rr, pc := s.pc + 1 }) ∧
    (0 < d.toNat ∧ d.toNat < 8 →
      exec (.stoc d) s = .next { s with out := s.out.writeBit d.toNat !s.rr, pc := s.pc + 1 })

/-- The spec's decision D3 (R31, R92; log entry 5) with D10 (log entry 9): a store at `d = 0x0` or `d = 0x8` raises
`AddrZeroFault(d)`, writes nothing and changes nothing but the mark; at every other `d` it leaves the mark alone. -/
def Obligations.StoresFaultOnIndexZero : Prop :=
  ∀ (s : State), ∀ mk ∈ [Instr.sto, Instr.stoc],
    exec (mk 0x0#4) s = .next { s with fault := some (.addrZero 0x0#4) } ∧
    exec (mk 0x8#4) s = .next { s with fault := some (.addrZero 0x8#4) } ∧
    ∀ d, d ≠ 0x0#4 → d ≠ 0x8#4 → ∃ t, exec (mk d) s = .next t ∧ t.fault = s.fault

/-- R92, R34: the frame of STO and STOC, fault or not: `RR`, the registers, the input pins and the program are
unchanged, and every cell but the one the operand selects reads as before. That the input pins, `IN[0]` included, stay
is the spec's decision D7 (R44; log entry 10); the fault and its having no other effect are its decisions D3 and D10
(log entries 5 and 9). -/
def Obligations.StoreFrame : Prop :=
  ∀ (d : Nibble) (s t : State), ∀ mk ∈ [Instr.sto, Instr.stoc],
    exec (mk d) s = .next t →
      FrameOutsideData s t ∧ t.rr = s.rr ∧
      (∀ a, t.inp.read a = s.inp.read a) ∧
      (∀ a, ¬ (domainOf d = .ram ∧ a = indexOf d) → t.ram.read a = s.ram.read a) ∧
      (∀ a, ¬ (domainOf d = .pins ∧ a = indexOf d) → t.out.read a = s.out.read a)

/-- R92, R28: a stored RAM bit is read back by a load at the same address; a stored output bit is not, the load reads
the input pin of that index. -/
def Obligations.StoredRamBitIsReadBackAndOutputBitIsNot : Prop :=
  ∀ (d : Nibble) (s : State), d ≠ 0x0#4 → d ≠ 0x8#4 →
    ∃ t u, exec (.sto d) s = .next t ∧ exec (.ld d) t = .next u ∧
      (8 < d.toNat → t.ram.readBit (d.toNat - 8) = s.rr ∧ u.rr = s.rr) ∧
      (d.toNat < 8 → t.out.readBit d.toNat = s.rr ∧ u.rr = s.inp.readBit d.toNat)

/-- R95: STO to a RAM cell followed by XNOR of it gives `RR = 1`, followed by ANDC of it gives `RR = 0`, whatever `RR`
was. -/
def Obligations.StoreThenCompareIdentities : Prop :=
  ∀ (d : Nibble) (s : State), 8 < d.toNat →
    ∃ t, exec (.sto d) s = .next t ∧
      (∃ u, exec (.xnor d) t = .next u ∧ u.rr = true) ∧ (∃ u, exec (.andc d) t = .next u ∧ u.rr = false)

/-! ### Enable registers -/

/-- R93: IEN copies the operand nibble into `IEN`, all sixteen values, no lookup and no fault; the dump then shows it.
The opcode number is the spec's decision D2. -/
def Obligations.IenStoresOperandVerbatim : Prop :=
  ∀ (d : Nibble) (s : State),
    encode (.ien d) = 0xA#4 ++ d ∧ basicOpcode "ien".toList = some 0xA#4 ∧
    exec (.ien d) s = .next { s with ien := d, ienWritten := true, pc := s.pc + 1 } ∧
    ∀ t, exec (.ien d) s = .next t → (readOutputs t).ien = some d

/-- R94: OEN copies the operand nibble into `OEN`, all sixteen values, no lookup and no fault; the dump then shows it.
The opcode number is the spec's decision D2. -/
def Obligations.OenStoresOperandVerbatim : Prop :=
  ∀ (d : Nibble) (s : State),
    encode (.oen d) = 0xB#4 ++ d ∧ basicOpcode "oen".toList = some 0xB#4 ∧
    exec (.oen d) s = .next { s with oen := d, oenWritten := true, pc := s.pc + 1 } ∧
    ∀ t, exec (.oen d) s = .next t → (readOutputs t).oen = some d

/-- R43: `IEN` and `OEN` gate nothing: whatever they hold, every instruction does the same to everything else. -/
def Obligations.EnableRegistersGateNothing : Prop :=
  ∀ (i : Instr) (s t : State) (e o : Nibble) (ew ow : Bool), exec i s = .next t →
    ∃ t', exec i { s with ien := e, ienWritten := ew, oen := o, oenWritten := ow } = .next t' ∧
      { t' with ien := t.ien, ienWritten := t.ienWritten, oen := t.oen, oenWritten := t.oenWritten } = t

/-! ### Control transfer -/

/-- R49: the branch offset in all its forms: the displacement from the following word, the distance from `m = d[2:0]`,
never 0, always a multiple of 4 between 4 and 32 words; forward exactly when `d[3]` is set; and JMP adds it to the
index of the following word wherever the sum is a word index. -/
def Obligations.BranchDisplacements : Prop :=
  ∀ d : Nibble,
    (8 ≤ d.toNat → branchDisplacement d = 4 * ((d.toNat : Int) - 7)) ∧
    (d.toNat < 8 → branchDisplacement d = -4 * ((d.toNat : Int) + 1)) ∧
    (branchDisplacement d).natAbs = ((d.extractLsb' 0 3).toNat + 1) * 4 ∧
    (0 < branchDisplacement d ↔ d.getLsbD 3 = true) ∧
    branchDisplacement d ≠ 0 ∧ (4 : Int) ∣ branchDisplacement d ∧
    4 ≤ (branchDisplacement d).natAbs ∧ (branchDisplacement d).natAbs ≤ 32 ∧
    ∀ s : State, 0 ≤ (s.pc : Int) + 1 + branchDisplacement d →
      exec (.jmp d) s = .next { s with pc := ((s.pc : Int) + 1 + branchDisplacement d).toNat }

/-- R97: a JMP forward, and a JMP backward that stays at or above word 0, moves `pc` by the offset rule and changes
nothing else. The opcode number is the spec's decision D2; the underflow is JmpBelowWordZeroFaults. -/
def Obligations.JmpMovesRelative : Prop :=
  ∀ (d : Nibble) (s : State),
    encode (.jmp d) = 0xC#4 ++ d ∧ basicOpcode "jmp".toList = some 0xC#4 ∧
    (8 ≤ d.toNat → exec (.jmp d) s = .next { s with pc := s.pc + 1 + 4 * (d.toNat - 7) }) ∧
    (d.toNat < 8 → 4 * (d.toNat + 1) ≤ s.pc + 1 →
      exec (.jmp d) s = .next { s with pc := s.pc + 1 - 4 * (d.toNat + 1) })

/-- The spec's decision D5 (R97, R108; log entry 6) with D10 (log entry 9): a backward JMP with a target below word 0
raises `PcUnderflowFault(target)` with the negative target and changes nothing but the mark. -/
def Obligations.JmpBelowWordZeroFaults : Prop :=
  ∀ (d : Nibble) (s : State), d.toNat < 8 → s.pc + 1 < 4 * (d.toNat + 1) →
    exec (.jmp d) s =
      .next { s with fault := some (.pcUnderflow ((s.pc : Int) + 1 - 4 * ((d.toNat : Int) + 1))) }

/-- R101: the JMP target table: the new `pc` of all sixteen operands, and from which `pc` on a backward one does not
raise the fault. The underflow fault is the spec's decision D5 (log entry 6); that it sets the mark and changes nothing
else is its decision D10 (R106), and that this is a next state is the model's choice (log entry 9). -/
def Obligations.JmpTargetTable : Prop :=
  ∀ s : State,
    (∀ row ∈ [(0x8#4, 5), (0x9#4, 9), (0xA#4, 13), (0xB#4, 17), (0xC#4, 21), (0xD#4, 25), (0xE#4, 29), (0xF#4, 33)],
      exec (.jmp row.1) s = .next { s with pc := s.pc + row.2 }) ∧
    (∀ row ∈ [(0x0#4, 3), (0x1#4, 7), (0x2#4, 11), (0x3#4, 15), (0x4#4, 19), (0x5#4, 23), (0x6#4, 27), (0x7#4, 31)],
      (row.2 ≤ s.pc → exec (.jmp row.1) s = .next { s with pc := s.pc - row.2 }) ∧
      (s.pc < row.2 →
        exec (.jmp row.1) s = .next { s with fault := some (.pcUnderflow ((s.pc : Int) - (row.2 : Nat))) }))

/-- R98: RTN skips the next word, whatever its operand. The opcode number is the spec's decision D2, the ignored operand
D11. -/
def Obligations.RtnSkipsNextWord : Prop :=
  ∀ (d : Nibble) (s : State),
    encode (.rtn d) = 0xD#4 ++ d ∧ basicOpcode "ret".toList = some 0xD#4 ∧
    (∀ cfg, assembleLine cfg "ret".toList = .ok [(0xD#4, 0x1#4)]) ∧
    exec (.rtn d) s = .next { s with pc := s.pc + 2 }

/-- R99: SKZ skips the next word exactly when `RR = 0`, whatever its operand, and keeps `RR`. The opcode number is the
spec's decision D2, the ignored operand D11. -/
def Obligations.SkzSkipsOnZero : Prop :=
  ∀ (d : Nibble) (s : State),
    encode (.skz d) = 0xE#4 ++ d ∧ basicOpcode "skz".toList = some 0xE#4 ∧
    (∀ cfg, assembleLine cfg "skz".toList = .ok [(0xE#4, 0x1#4)]) ∧
    (s.rr = false → exec (.skz d) s = .next { s with pc := s.pc + 2 }) ∧
    (s.rr = true → exec (.skz d) s = .next { s with pc := s.pc + 1 })

/-- R102: the composed conditional jumps. After `skz; jmp d` the jump is taken when `RR = 1` and skipped when `RR =
0`; after `skz; ret; jmp d` it is taken when `RR = 0` and skipped when `RR = 1`. The words of the three instructions
rest on the spec's decisions D1 and D2 (log entries 1 and 2), and any operand of `skz` and `ret` on D11 (log entry
14). -/
def Obligations.ComposedConditionalJumps : Prop :=
  ∀ (s : State) (a b d : Nibble), s.fault = none → s.prog[s.pc]? = some (encode (.skz a)) →
    (s.prog[s.pc + 1]? = some (encode (.jmp d)) → 0 ≤ branchTarget (s.pc + 1) d →
      (s.rr = true →
        ∃ t, step s = .next t ∧ step t = .next { s with pc := (branchTarget (s.pc + 1) d).toNat }) ∧
      (s.rr = false → step s = .next { s with pc := s.pc + 2 })) ∧
    (s.prog[s.pc + 1]? = some (encode (.rtn b)) → s.prog[s.pc + 2]? = some (encode (.jmp d)) →
      0 ≤ branchTarget (s.pc + 2) d →
      (s.rr = false →
        ∃ t, step s = .next t ∧ step t = .next { s with pc := (branchTarget (s.pc + 2) d).toNat }) ∧
      (s.rr = true → ∃ t, step s = .next t ∧ step t = .next { s with pc := s.pc + 3 }))

/-- R96, R80, R81, R93, R94, R97 to R99: the frame of the instructions that touch no data: every cell reads as before,
`RR` and the program are unchanged, and the enable registers change only by their own instruction. That the input
pins, `IN[0]` included, stay is the spec's decision D7 (R44; log entry 10); the fault of a JMP below word 0 and its
having no other effect are its decisions D5 and D10 (log entries 6 and 9). -/
def Obligations.NoDataInstructionsFrame : Prop :=
  ∀ (d : Nibble) (s t : State),
    (∀ mk ∈ [Instr.nop, Instr.nopf, Instr.jmp, Instr.rtn, Instr.skz],
      exec (mk d) s = .next t → FrameOutsideData s t ∧ DataUnchanged s t ∧ t.rr = s.rr) ∧
    (exec (.ien d) s = .next t →
      DataUnchanged s t ∧ t.rr = s.rr ∧ t.oen = s.oen ∧ t.oenWritten = s.oenWritten ∧ t.prog = s.prog ∧
        t.fault = s.fault) ∧
    (exec (.oen d) s = .next t →
      DataUnchanged s t ∧ t.rr = s.rr ∧ t.ien = s.ien ∧ t.ienWritten = s.ienWritten ∧ t.prog = s.prog ∧
        t.fault = s.fault)

/-! ### Whole-machine rules -/

/-- R10, R13, R14, R16 to R18, R40 (the table of 10_state.md section 7): who may write what. An instruction that
changed a piece of state is one of those the spec lists for it; none writes an input pin or the program. That no
instruction writes an input pin, `IN[0]` included, is the spec's decision D7 (R44, 90_conflicts.md C6; log entry 10).
-/
def Obligations.EachStateWrittenOnlyByItsInstructions : Prop :=
  ∀ (i : Instr) (s t : State), exec i s = .next t →
    (t.rr ≠ s.rr → i.opcode ∈ [0x1#4, 0x2#4, 0x3#4, 0x4#4, 0x5#4, 0x6#4, 0x7#4]) ∧
    ((t.ien, t.ienWritten) ≠ (s.ien, s.ienWritten) → i.opcode = 0xA#4) ∧
    ((t.oen, t.oenWritten) ≠ (s.oen, s.oenWritten) → i.opcode = 0xB#4) ∧
    (t.ram ≠ s.ram → i.opcode ∈ [0x8#4, 0x9#4] ∧ i.operand.getLsbD 3 = true) ∧
    (t.out ≠ s.out → i.opcode ∈ [0x8#4, 0x9#4] ∧ i.operand.getLsbD 3 = false) ∧
    t.inp = s.inp ∧ t.prog = s.prog

/-- R10: who reads `RR`: for NOP, NOPF, LD, LDC, IEN, OEN, JMP and RTN the rest of the next state does not depend on
it. -/
def Obligations.AccumulatorReadOnlyByItsReaders : Prop :=
  ∀ (i : Instr) (s t : State) (b : Bit),
    i.opcode ∈ [0x0#4, 0x1#4, 0x2#4, 0xA#4, 0xB#4, 0xC#4, 0xD#4, 0xF#4] → exec i s = .next t →
    ∃ t', exec i { s with rr := b } = .next t' ∧ { t' with rr := t.rr } = t ∧
      (i.opcode ∈ [0x1#4, 0x2#4] → i.operand ≠ 0x8#4 → t'.rr = t.rr)

/-- R18: no instruction reads an output pin: whatever the output pins hold, every instruction does the same to
everything else. -/
def Obligations.OutputPinsAreNeverRead : Prop :=
  ∀ (i : Instr) (s t : State) (o : Memory), exec i s = .next t →
    ∃ t', exec i { s with out := o } = .next t' ∧ { t' with out := t.out } = t ∧
      (∀ a, t.out.read a ≠ s.out.read a → t'.out.read a = t.out.read a)

/-- R57: the decoder's control table and the instruction rules agree: the datapath driven by the table's row does what
the instruction does, in every state, faults included. -/
def Obligations.ControlTableDrivesEveryInstruction : Prop :=
  ∀ (i : Instr) (s : State), exec i s = datapath (controlSignals i) i.operand s

/-- The spec's decisions D3, D5 and D10 (R53, R105, R107, R108; log entries 5, 6 and 9): an enabled step raises a fault
exactly at one of the eleven words of R107 or at a JMP below word 0, and the mark records what R105 says. -/
def Obligations.FaultsExactlyWhereListed : Prop :=
  ∀ (s : State) (w : Word), s.fault = none → s.prog[s.pc]? = some w →
    ∃ t, step s = .next t ∧
      (t.fault ≠ none ↔ w ∈ gapWords ∨ underflowsAt s.pc w) ∧
      (∀ f, t.fault = some f → f.recordedAt s.pc w)

/-- The spec's decisions D10 and D12 (R19, R106, R126; log entry 9): a step that raises a fault changes nothing but the
mark; in every state with a mark, however reached, a step request is refused, changes nothing and returns
`continue = 0`, and every host action keeps the mark but a load, of words or of a text that is no refused one. -/
def Obligations.FaultIsPreciseAndSticky : Prop :=
  (∀ (s t : State) (f : Fault), step s = .next t → t.fault = some f → t = { s with fault := some f }) ∧
  (∀ (s : State) (f : Fault), s.fault = some f →
    step s = .refused (.machineFaulted f) ∧
    (requestStep s).state = s ∧ (requestStep s).goesOn = false ∧
    (requestStep s).refusal = some (.machineFaulted f) ∧
    (∀ a, (∀ p, a ≠ .load p) → (∀ x p, a = .loadText x → parseProgram x ≠ .ok p) →
      (hostAct a s).state.fault = some f) ∧
    (∀ p, (hostAct (.load p) s).state = load p) ∧
    (∀ x p, parseProgram x = .ok p → (hostAct (.loadText x) s).state = load p))

/-- The spec's decision D12 (R123, R126; log entry 8): at `pc >= L` without a fault the run has ended: a step request is
refused, changes nothing and returns `continue = 0`. -/
def Obligations.EndedRunRefusesSteps : Prop :=
  ∀ s : State, s.fault = none → s.prog.length ≤ s.pc →
    s.finished ∧ step s = .refused .runEnded ∧ (requestStep s).state = s ∧ (requestStep s).goesOn = false ∧
      (requestStep s).refusal = some .runEnded

/-- R100: after a step the continue signal is 1 exactly when no fault was raised and `pc < L`. That it is 0 with a
fault is the spec's decision D10, that a faulting step is a next state the model's choice (log entry 9), and that `pc`
keeps its value at the end of the program the spec's decision D6 (log entry 8). -/
def Obligations.ContinueSignalAfterStep : Prop :=
  ∀ s t : State, step s = .next t →
    (requestStep s).state = t ∧ (requestStep s).refusal = none ∧
      ((requestStep s).goesOn = true ↔ t.fault = none ∧ t.pc < s.prog.length)

/-! ### Reset and the host -/

/-- R22, R120, R125: load is the reset, whatever went before. `RR = 0` is derived by the spec (D9); `IEN` and `OEN`
are unwritten (D8); the values the fields `ien` and `oen` hold then are the model's own (log entry 3) and not stated.
That the reply to a load carries a continue signal is the model's choice (log entry 23). -/
def Obligations.LoadGivesResetState : Prop :=
  ∀ (p : List Word) (s : State), ∃ t, hostAct (.load p) s = accepted t ∧
    t.rr = false ∧ t.dumpIen = none ∧ t.dumpOen = none ∧ t.pc = 0 ∧ t.fault = none ∧ t.prog = p ∧
    (∀ a, 1 ≤ a → a ≤ 7 → t.ram.readBit a = false ∧ t.inp.readBit a = false ∧ t.out.readBit a = false) ∧
    t.inp.readBit 0 = true ∧ (p = [] → t = State.reset)

/-- The invariant holds after every load and at reset: canonical memories (the model's choice, log entry 13), `pc` at
most `L + 32`, no fault. -/
def Obligations.ResetMeetsMachineInvariant : Prop :=
  State.reset.Inv ∧ ∀ p : List Word, (load p).Inv

/-- R15, R16 to R18, R105, R106: every step keeps the invariant: the three arrays stay canonical, `pc` stays at most
`L + 32`, and a fault mark names the fault of the word at `pc` (the faults are the spec's decisions D3, D5 and D10,
log entries 5, 6 and 9; an unbounded `pc` is its decision D4, log entry 7; the canonical form of the arrays is the
model's choice, log entry 13). -/
def Obligations.StepKeepsMachineInvariant : Prop :=
  ∀ s t : State, s.Inv → step s = .next t → t.Inv

/-- R124, R106, R127: every sequence of host actions keeps the invariant: loads, textual loads, step requests, input
assignments and reads, accepted or refused (the faults are the spec's decisions D3, D5 and D10, log entries 5, 6 and
9; an unbounded `pc` is its decision D4, log entry 7; the refusals are D12, D14 and D15, log entries 8, 9, 16 and 20;
the canonical form of the arrays is the model's choice, log entry 13). -/
def Obligations.HostActionsKeepMachineInvariant : Prop :=
  ∀ (actions : List HostAction) (s : State), s.Inv → (hostRun actions s).Inv

/-- R127 (its domain is the spec's decision D15): an assignment to a pin 0 to 7 of a bit changes that pin and nothing
else, in every state; any other assignment is refused and changes nothing. -/
def Obligations.SetInputAssignsOnePin : Prop :=
  ∀ (pin value : Nat) (s : State),
    (pin < 8 → value < 2 →
      ∃ t, setInput pin value s = .ok t ∧ (hostAct (.setInput pin value) s).state = t ∧
        t = { s with inp := t.inp } ∧ t.inp.readBit pin = decide (value = 1) ∧
        ∀ a, a ≠ pin → t.inp.read a = s.inp.read a) ∧
    (8 ≤ pin ∨ 2 ≤ value →
      (hostAct (.setInput pin value) s).state = s ∧ (hostAct (.setInput pin value) s).refusal ≠ none)

/-- R128: reading the outputs changes nothing and gives `OUT[1..7]`, `RR`, `IEN`, `OEN` and `RAM[1..7]`, no index 0, an
enable register not yet written as unwritten. -/
def Obligations.ReadOutputsIsPure : Prop :=
  ∀ s : State, ∃ snap,
    (hostAct .readOutputs s).state = s ∧ (hostAct .readOutputs s).snapshot = some snap ∧
    (∀ a b, (a, b) ∈ snap.out ↔ 1 ≤ a ∧ a ≤ 7 ∧ b = s.out.readBit a) ∧
    (∀ a b, (a, b) ∈ snap.ram ↔ 1 ≤ a ∧ a ≤ 7 ∧ b = s.ram.readBit a) ∧
    snap.rr = s.rr ∧
    (∀ v, snap.ien = some v ↔ s.ienWritten = true ∧ v = s.ien) ∧
    (∀ v, snap.oen = some v ↔ s.oenWritten = true ∧ v = s.oen)

/-- R17, R42: a pin holds what the host last gave it: after an assignment and any number of step requests, a load from
that pin gives the assigned bit. That pins are latched state which a step leaves alone is log entry 11 (DEDUCED from R17
and R42), and that this holds of pin 0 too, which does not follow `RR`, is the spec's decision D7 (R44, 90_conflicts.md
C6; log entry 10). -/
def Obligations.AssignedInputIsLatchedAndLoaded : Prop :=
  ∀ (d : Nibble) (b : Bool) (n : Nat) (s : State), d.toNat < 8 →
    ∃ u, exec (.ld d)
        (hostRun (.setInput d.toNat (if b then 1 else 0) :: List.replicate n .step) s) = .next u ∧
      u.rr = b

/-- R40, R106, R127: no host action but a load changes the program. -/
def Obligations.ProgramChangesOnlyByLoad : Prop :=
  ∀ (actions : List HostAction) (s : State),
    (∀ a ∈ actions, ∀ p t, a ≠ .load p ∧ a ≠ .loadText t) → (hostRun actions s).prog = s.prog

/-! ### Program text and assembler -/

/-- R56: the text of a program has two digits per word, and loading it gives the program back; lower-case digits load
alike (D14). -/
def Obligations.ProgramTextRoundTrip : Prop :=
  ∀ p : List Word,
    (programText p).length = 2 * p.length ∧ loadText (programText p) = .ok (load p) ∧
    loadText ((programText p).map Char.toLower) = .ok (load p)

/-- The spec's decision D14 (R56; log entry 16): a text is refused exactly when its length is odd or one of its
characters is none of `0-9`, `A-F` and `a-f`, and a refused text loads nothing. -/
def Obligations.MalformedTextLoadsNothing : Prop :=
  ∀ (t : Text) (s : State),
    ((∃ p, parseProgram t = .ok p) ↔ t.length % 2 = 0 ∧ ∀ c ∈ t, c ∈ "0123456789ABCDEFabcdef".toList) ∧
    ((∀ p, parseProgram t ≠ .ok p) →
      (hostAct (.loadText t) s).state = s ∧ (hostAct (.loadText t) s).refusal ≠ none)

/-- R75: for every basic-mnemonic line (comments and any white space included) with an operand token that resolves, or
without one where the mnemonic has a default operand, assembling then decoding its word recovers the opcode of the
mnemonic and the operand; the plain line of name, one space and token is such a line. The word `16*op + v` rests on the
spec's decision D1 (log entry 1), `under every macro table` on its decision D22, and which tokens resolve on D17. -/
def Obligations.BasicLineRoundTrip : Prop :=
  (∀ (name token : Text) (op v : Nibble), basicOpcode name = some op → resolveOperand token = .ok v →
    tokens (stripComment (name ++ [' '] ++ token)) = [name, token]) ∧
  ∀ (cfg : AsmConfig) (line name : Text) (args : List Text) (op v : Nibble),
    tokens (stripComment line) = name :: args → basicOpcode name = some op →
    ((∃ token, args = [token] ∧ resolveOperand token = .ok v) ∨ (args = [] ∧ bareDefault name = some v)) →
    assembleLine cfg line = .ok [(op, v)] ∧
    (pairWord (op, v)).toNat = 16 * op.toNat + v.toNat ∧
    opcodeField (pairWord (op, v)) = op ∧ operandField (pairWord (op, v)) = v ∧
    (decode (pairWord (op, v))).opcode = op ∧ (decode (pairWord (op, v))).operand = v

/-- R64, R73: when a line fails and every earlier line assembles, the assembly fails with that line's own error and its
1-based position, counting every line, and gives no words; every failure is of this kind; and the assembly succeeds
exactly when every line does, with the words of all the lines' pairs in order. A mnemonic that is neither basic nor a
macro is `UnknownInstruction`, whatever its arguments (the spec's decision D17); an error of the macro engine comes
through unchanged. -/
def Obligations.FirstFailingLineIsReported : Prop :=
  (∀ (cfg : AsmConfig) (text : Text) (k : Nat) (line : Text) (e : AsmError),
    (sourceLines text)[k]? = some line → assembleLine cfg line = .error e →
    (∀ earlier ∈ (sourceLines text).take k, ∃ pairs, assembleLine cfg earlier = .ok pairs) →
    assembleWords cfg text = .error (.atLine (k + 1) e)) ∧
  (∀ (cfg : AsmConfig) (text : Text) (words : List Word),
    assembleWords cfg text = .ok words ↔
      ∃ out : List (List Pair),
        List.Forall₂ (fun line pairs => assembleLine cfg line = .ok pairs) (sourceLines text) out ∧
        words = out.flatten.map pairWord) ∧
  (∀ (cfg : AsmConfig) (text : Text) (n : Nat) (e : AsmError),
    assembleWords cfg text = .error (.atLine n e) →
    1 ≤ n ∧ (∃ line, (sourceLines text)[n - 1]? = some line ∧ assembleLine cfg line = .error e) ∧
      ∀ m, m < n - 1 → ∃ line pairs, (sourceLines text)[m]? = some line ∧ assembleLine cfg line = .ok pairs) ∧
  (∀ (cfg : AsmConfig) (line name : Text) (args : List Text),
    tokens (stripComment line) = name :: args → basicOpcode name = none →
    (cfg.macros.lookup name = none → assembleLine cfg line = .error .unknownInstruction) ∧
    (∀ steps token v e, cfg.macros.lookup name = some steps → args = [token] → digitToken token = some v →
      invokeMacro cfg name [v] = .error e → assembleLine cfg line = .error e))

/-- R70 with the depth limit of the spec's decision D19 (log entry 18): in a macro table without reference cycles (its
names have a rank that falls along every reference) no expansion exceeds a limit above the rank, what an expansion gives
holds basic mnemonics only, and the expansion of a macro succeeds where every step is well-referenced (R66 to R69; the
default operand of a bare step is the spec's decision D18, the range of a back-reference D21). -/
def Obligations.AcyclicMacrosExpand : Prop :=
  ∀ (table : MacroTable) (rank : Text → Nat),
    (∀ name steps, table.lookup name = some steps → ∀ m ∈ steps, basicOpcode m.target = none →
      table.lookup m.target ≠ none → rank m.target < rank name) →
    ∀ (depth : Nat) (name : Text) (actuals : List Nibble), rank name < depth →
      expandMacro table depth name actuals ≠ .error .macroDepthExceeded ∧
      (∀ pairs, expandMacro table depth name actuals = .ok pairs →
        ∀ p ∈ pairs, ∃ mnemonic, basicOpcode mnemonic = some p.1) ∧
      ∀ arity : Text → Nat,
        (∀ other steps, table.lookup other = some steps →
          ∀ m ∈ steps, m.wellReferenced table arity (arity other)) →
        table.lookup name ≠ none → arity name ≤ actuals.length →
        ∃ pairs, expandMacro table depth name actuals = .ok pairs

/-- R58, R64: how a source text is read: its lines are what stands between its line feeds, blank ones included; a line
ends for the assembler at its first `;`; its tokens are its longest runs without white space. That the line feed ends a
line, and which four characters are white space, are the model's choice (log entry 16). -/
def Obligations.SourceTextReading : Prop :=
  ∀ t : Text,
    sourceLines t = t.splitOnP (fun c => decide (c = '\n')) ∧
    stripComment t = t.takeWhile (fun c => decide (c ≠ ';')) ∧
    tokens t = (t.splitOnP fun c => decide (c ∈ [' ', '\t', '\r', '\n'])).filter fun run => decide (run ≠ [])

/-- R61, R66, R67, R68: a source line that names a macro. Its one actual argument is a hexadecimal digit, used or not:
any other token, `!rr` included, is `BadOperand`, and so is every invocation under a table with a literal above 15;
else the line gives what the expansion with that digit gives, error or pairs. `BadOperand` is the spec's decision D17
(log entries 17 and 19); a name that is basic too is excluded by its decision D22. -/
def Obligations.MacroLineTakesOneDigit : Prop :=
  ∀ (cfg : AsmConfig) (line name : Text) (args : List Text) (steps : List MacroStep),
    tokens (stripComment line) = name :: args → basicOpcode name = none → cfg.macros.lookup name = some steps →
    (args = [] → assembleLine cfg line = .error .tooFewArguments) ∧
    (2 ≤ args.length → assembleLine cfg line = .error .tooManyArguments) ∧
    (∀ token, args = [token] → (∀ c ∈ "0123456789ABCDEFabcdef".toList, token ≠ [c]) →
      assembleLine cfg line = .error .badOperand) ∧
    (∀ token, args = [token] → (∃ entry ∈ cfg.macros, ∃ m ∈ entry.2, ∃ z ∈ m.specs, 15 < z) →
      assembleLine cfg line = .error .badOperand) ∧
    (∀ c v, args = [[c]] → hexDigit c = some v → (∀ entry ∈ cfg.macros, ∀ m ∈ entry.2, ∀ z ∈ m.specs, z ≤ 15) →
      assembleLine cfg line = expandMacro cfg.macros cfg.depthMax name [v])

/-- R67, R68: a specifier `-k` is the k-th actual argument exactly when `1 <= k <= n`, and `TooFewArguments` beyond; a
literal 0 to 15 is itself. The range is the spec's decision D21. -/
def Obligations.SpecifiersResolve : Prop :=
  ∀ (actuals : List Nibble) (k : Nat),
    (∀ v, 1 ≤ k → (resolveSpec (-(k : Int)) actuals = .ok v ↔ actuals[k - 1]? = some v)) ∧
    (actuals.length < k → resolveSpec (-(k : Int)) actuals = .error .tooFewArguments) ∧
    (k ≤ 15 → resolveSpec k actuals = .ok (BitVec.ofNat 4 k))
end

