-- ==== Sys2Proof/Laws/Assembler.lean ====
section
/-! SUPPORT. What each function of the toolchain can do, said once: specifiers, expansion, lines. -/

namespace Sys2Proof.Machine

/-- A specifier resolves to a literal 0 to 15 or to an actual argument, and to nothing else (spec 30_encoding.md R67,
R68). -/
theorem resolveSpec_ok {z : Int} {actuals : List Nibble} {v : Nibble} (h : resolveSpec z actuals = .ok v) :
    (0 ≤ z ∧ z ≤ 15 ∧ v = BitVec.ofNat 4 z.toNat) ∨ (z < 0 ∧ actuals[(-z).toNat - 1]? = some v) := by
  unfold resolveSpec at h
  split_ifs at h with h0 h15
  · exact .inl ⟨h0, h15, (Except.ok.inj h).symm⟩
  · cases ha : actuals[(-z).toNat - 1]? with
    | none => simp [ha] at h
    | some u => exact .inr ⟨by omega, by simpa [ha] using h⟩

/-- A specifier fails with `BadOperand` or `TooFewArguments`, and with no other error. -/
theorem resolveSpec_error {z : Int} {actuals : List Nibble} {e : AsmError} (h : resolveSpec z actuals = .error e) :
    e = .badOperand ∨ e = .tooFewArguments := by
  unfold resolveSpec at h
  split_ifs at h
  · exact .inl (Except.error.inj h).symm
  · cases ha : actuals[(-z).toNat - 1]? with
    | none => exact .inr (by simpa [ha] using h.symm)
    | some u => simp [ha] at h

/-- The resolved specifiers are as many as the specifiers. -/
theorem resolveSpecs_length {zs : List Int} {actuals vs : List Nibble} (h : resolveSpecs zs actuals = .ok vs) :
    vs.length = zs.length := by
  induction zs generalizing vs with
  | nil => simp [resolveSpecs] at h; simp [← h]
  | cons z rest ih =>
    simp only [resolveSpecs] at h
    split at h
    · cases h
    · split at h
      · cases h
      · rename_i ws hw
        cases h
        simp [ih hw]

/-- An invocation that succeeds was made under an accepted table and is the expansion (spec 30_encoding.md R68). -/
theorem invokeMacro_ok {cfg : AsmConfig} {name : Text} {actuals : List Nibble} {pairs : List Pair}
    (h : invokeMacro cfg name actuals = .ok pairs) :
    macroTableOk cfg.macros = true ∧ expandMacro cfg.macros cfg.depthMax name actuals = .ok pairs := by
  unfold invokeMacro at h
  split_ifs at h with ht
  exact ⟨ht, h⟩

/-- A macro line that succeeds has one argument, a digit (spec 30_encoding.md R61, R67). -/
theorem assembleInvocation_ok {cfg : AsmConfig} {name : Text} {args : List Text} {pairs : List Pair}
    (h : assembleInvocation cfg name args = .ok pairs) :
    ∃ token v, args = [token] ∧ digitToken token = some v ∧ invokeMacro cfg name [v] = .ok pairs := by
  match args with
  | [] => cases h
  | [token] =>
    simp only [assembleInvocation] at h
    split at h
    · rename_i v hv
      exact ⟨token, v, rfl, hv, h⟩
    · cases h
  | _ :: _ :: _ => cases h

/-! ### A line, by what its first token is -/

theorem assembleLine_blank (cfg : AsmConfig) {line : Text} (h : tokens (stripComment line) = []) :
    assembleLine cfg line = .ok [] := by
  simp [assembleLine, h]

theorem assembleLine_basic (cfg : AsmConfig) {line name : Text} {args : List Text} {op : Nibble}
    (h : tokens (stripComment line) = name :: args) (hb : basicOpcode name = some op) :
    assembleLine cfg line = assembleBasic op name args := by
  simp [assembleLine, h, hb]

theorem assembleLine_macro (cfg : AsmConfig) {line name : Text} {args : List Text} {steps : List MacroStep}
    (h : tokens (stripComment line) = name :: args) (hb : basicOpcode name = none)
    (hm : cfg.macros.lookup name = some steps) : assembleLine cfg line = assembleInvocation cfg name args := by
  simp [assembleLine, h, hb, hm]

theorem assembleLine_unknown (cfg : AsmConfig) {line name : Text} {args : List Text}
    (h : tokens (stripComment line) = name :: args) (hb : basicOpcode name = none)
    (hm : cfg.macros.lookup name = none) : assembleLine cfg line = .error .unknownInstruction := by
  simp [assembleLine, h, hb, hm]

/-! ### The lines of a text, one at a time -/

theorem assembleLines_fail (cfg : AsmConfig) (n : Nat) {line : Text} (rest : List Text) {e : AsmError}
    (h : assembleLine cfg line = .error e) : assembleLines cfg n (line :: rest) = .error (.atLine n e) := by
  simp [assembleLines, h]

theorem assembleLines_pass (cfg : AsmConfig) (n : Nat) {line : Text} (rest : List Text) {pairs : List Pair}
    (h : assembleLine cfg line = .ok pairs) :
    assembleLines cfg n (line :: rest) = (assembleLines cfg (n + 1) rest).map (pairs ++ ·) := by
  simp only [assembleLines, h]
  cases assembleLines cfg (n + 1) rest <;> rfl

end Sys2Proof.Machine
end

