-- ==== Sys2Proof/Laws/Decode.lean ====
section
/-! SUPPORT. The fields of a packed word, and the words of the opcode table. -/

namespace Sys2Proof

@[simp] theorem opcodeField_packWord (op d : Nibble) : opcodeField (packWord op d) = op := by
  revert op d; decide

@[simp] theorem operandField_packWord (op d : Nibble) : operandField (packWord op d) = d := by
  revert op d; decide

/-- A word is its two nibbles. -/
theorem packWord_fields (w : Word) : packWord (opcodeField w) (operandField w) = w := by
  revert w; decide

@[simp] theorem decode_packWord (op d : Nibble) : decode (packWord op d) = instrOf op d := by
  simp [decode]

/-- The packed word as a number (spec 30_encoding.md R46). -/
theorem packWord_toNat (op d : Nibble) : (packWord op d).toNat = 16 * op.toNat + d.toNat := by
  revert op d; decide

end Sys2Proof
end

