-- ==== Sys2Proof/Laws/Memory.lean ====
section
/-! SUPPORT. The laws of one array of 1-bit cells: read after write, frame, canonical form, and equality by
reading. -/

namespace Sys2Proof.Machine

/-! ### Read after write -/

theorem Memory.read_erase_same (m : Memory) (a : Nat) : (m.erase a).read a = Config.unlistedByte := by
  induction m with
  | nil => rfl
  | cons e rest ih =>
    obtain ⟨k, v⟩ := e
    by_cases h : k = a
    · simp [Memory.erase, h, ih]
    · simp [Memory.erase, Memory.read, h, ih]

theorem Memory.read_erase_other (m : Memory) {a b : Nat} (h : b ≠ a) : (m.erase a).read b = m.read b := by
  induction m with
  | nil => rfl
  | cons e rest ih =>
    obtain ⟨k, v⟩ := e
    by_cases hk : k = a
    · simp [Memory.erase, Memory.read, hk, ih, Ne.symm h]
    · simp [Memory.erase, Memory.read, hk, ih]

theorem Memory.read_insert_other (m : Memory) {a b : Nat} (v : Byte) (h : b ≠ a) :
    (m.insert a v).read b = m.read b := by
  induction m with
  | nil => simp [Memory.insert, Memory.read, Ne.symm h]
  | cons e rest ih =>
    obtain ⟨k, w⟩ := e
    by_cases hk : a < k
    · simp [Memory.insert, Memory.read, hk, Ne.symm h]
    · simp [Memory.insert, Memory.read, hk, ih]

theorem Memory.read_insert_erased (m : Memory) (a : Nat) (v : Byte) : ((m.erase a).insert a v).read a = v := by
  induction m with
  | nil => simp [Memory.erase, Memory.insert, Memory.read]
  | cons e rest ih =>
    obtain ⟨k, w⟩ := e
    by_cases hk : k = a
    · simp [Memory.erase, hk, ih]
    · by_cases hlt : a < k
      · simp [Memory.erase, Memory.insert, Memory.read, hk, hlt]
      · simp [Memory.erase, Memory.insert, Memory.read, hk, hlt, ih]

/-- Reading the written cell gives the written byte. -/
theorem Memory.read_write_same (m : Memory) (a : Nat) (v : Byte) : (m.write a v).read a = v := by
  by_cases h : v = Config.unlistedByte
  · simp [Memory.write, h, Memory.read_erase_same]
  · simp [Memory.write, h, Memory.read_insert_erased]

/-- A write leaves every other cell alone. -/
theorem Memory.read_write_other (m : Memory) {a b : Nat} (v : Byte) (h : b ≠ a) :
    (m.write a v).read b = m.read b := by
  by_cases hv : v = Config.unlistedByte
  · simp [Memory.write, hv, Memory.read_erase_other m h]
  · simp [Memory.write, hv, Memory.read_insert_other _ v h, Memory.read_erase_other m h]

/-- A bit is read back as it was written. -/
@[simp] theorem Memory.readBit_writeBit_same (m : Memory) (a : Nat) (b : Bit) :
    (m.writeBit a b).readBit a = b := by
  cases b <;> simp [Memory.readBit, Memory.writeBit, bitByte, Memory.read_write_same, Config.unlistedByte,
    Config.oneByte]

/-- Writing a bit leaves every other cell's byte alone. -/
theorem Memory.read_writeBit_other (m : Memory) {a b : Nat} (v : Bit) (h : b ≠ a) :
    (m.writeBit a v).read b = m.read b :=
  Memory.read_write_other m (bitByte v) h

/-- Writing a bit leaves every other cell's bit alone. -/
theorem Memory.readBit_writeBit_other (m : Memory) {a b : Nat} (v : Bit) (h : b ≠ a) :
    (m.writeBit a v).readBit b = m.readBit b := by
  simp [Memory.readBit, Memory.read_writeBit_other m v h]

/-! ### Canonical form -/

/-- What the canonical form says of the first entry. -/
theorem Memory.wf_cons {lo k : Nat} {v : Byte} {rest : Memory} :
    Memory.wf lo ((k, v) :: rest) = true ↔
      lo ≤ k ∧ k < Config.cellCount ∧ v = Config.oneByte ∧ Memory.wf (k + 1) rest = true := by
  simp [Memory.wf, and_assoc]

@[simp] theorem Memory.wf_nil (lo : Nat) : Memory.wf lo [] = true := rfl

theorem Memory.wf_mono {lo lo' : Nat} {m : Memory} (hlo : lo' ≤ lo) (h : m.wf lo = true) :
    m.wf lo' = true := by
  cases m with
  | nil => rfl
  | cons e rest =>
    obtain ⟨k, v⟩ := e
    rw [Memory.wf_cons] at h ⊢
    exact ⟨le_trans hlo h.1, h.2⟩

theorem Memory.wf_erase {lo : Nat} {m : Memory} (a : Nat) (h : m.wf lo = true) : (m.erase a).wf lo = true := by
  induction m generalizing lo with
  | nil => rfl
  | cons e rest ih =>
    obtain ⟨k, v⟩ := e
    rw [Memory.wf_cons] at h
    obtain ⟨hk, hc, hv, hr⟩ := h
    by_cases hka : k = a
    · simpa [Memory.erase, hka] using Memory.wf_mono (by omega) (ih hr)
    · simpa [Memory.erase, hka, Memory.wf_cons] using ⟨hk, hc, hv, ih hr⟩

/-- An erased cell is listed nowhere. -/
theorem Memory.not_mem_erase (m : Memory) (a : Nat) : ∀ e ∈ m.erase a, e.1 ≠ a := by
  induction m with
  | nil => simp [Memory.erase]
  | cons e rest ih =>
    obtain ⟨k, v⟩ := e
    by_cases hk : k = a
    · simpa [Memory.erase, hk] using ih
    · simpa [Memory.erase, hk] using ih

theorem Memory.wf_insert {lo a : Nat} {m : Memory} (hlo : lo ≤ a) (ha : a < Config.cellCount)
    (hfree : ∀ e ∈ m, e.1 ≠ a) (h : m.wf lo = true) : (m.insert a Config.oneByte).wf lo = true := by
  induction m generalizing lo with
  | nil => simpa [Memory.insert, Memory.wf_cons] using ⟨hlo, ha⟩
  | cons e rest ih =>
    obtain ⟨k, v⟩ := e
    rw [Memory.wf_cons] at h
    obtain ⟨hk, hc, hv, hr⟩ := h
    have hka : k ≠ a := hfree (k, v) (by simp)
    have hrest : ∀ e ∈ rest, e.1 ≠ a := fun e he => hfree e (by simp [he])
    by_cases hlt : a < k
    · simpa [Memory.insert, hlt, Memory.wf_cons] using ⟨hlo, ha, hc, hv, hr⟩
    · simpa [Memory.insert, hlt, Memory.wf_cons] using ⟨hk, hc, hv, ih (by omega) hrest hr⟩

/-- Writing a bit to a cell of the array keeps the canonical form. -/
theorem Memory.wf_writeBit {lo a : Nat} {m : Memory} (b : Bit) (hlo : lo ≤ a) (ha : a < Config.cellCount)
    (h : m.wf lo = true) : (m.writeBit a b).wf lo = true := by
  cases b
  · simpa [Memory.writeBit, bitByte, Memory.write] using Memory.wf_erase a h
  · have hne : Config.oneByte ≠ Config.unlistedByte := by decide
    simpa [Memory.writeBit, bitByte, Memory.write, hne] using
      Memory.wf_insert hlo ha (Memory.not_mem_erase m a) (Memory.wf_erase a h)

/-- The arrays of the reset state are canonical. -/
theorem reset_memories_wf :
    State.reset.ram.wf Config.firstStoredCell = true ∧ State.reset.inp.wf Config.firstInputPin = true ∧
      State.reset.out.wf Config.firstStoredCell = true := by
  decide

/-! ### Equal readings are equal data -/

/-- A canonical array reads 0 below its lowest index. -/
theorem Memory.read_below {lo a : Nat} {m : Memory} (h : m.wf lo = true) (ha : a < lo) :
    m.read a = Config.unlistedByte := by
  induction m generalizing lo with
  | nil => rfl
  | cons e rest ih =>
    obtain ⟨k, v⟩ := e
    rw [Memory.wf_cons] at h
    have hk : k ≠ a := by omega
    simpa [Memory.read, hk] using ih h.2.2.2 (by omega)

/-- Two canonical arrays that read alike are the same list. -/
theorem Memory.eq_of_read_eq {lo lo' : Nat} {m n : Memory} (hm : m.wf lo = true) (hn : n.wf lo' = true)
    (h : ∀ a, m.read a = n.read a) : m = n := by
  have hne : Config.oneByte ≠ Config.unlistedByte := by decide
  induction m generalizing n lo lo' with
  | nil =>
    cases n with
    | nil => rfl
    | cons e rest =>
      obtain ⟨k, v⟩ := e
      rw [Memory.wf_cons] at hn
      exact absurd (h k) (by simpa [Memory.read, hn.2.2.1] using hne.symm)
  | cons e rest ih =>
    obtain ⟨k, v⟩ := e
    rw [Memory.wf_cons] at hm
    obtain ⟨-, -, rfl, hr⟩ := hm
    cases n with
    | nil => exact absurd (h k) (by simpa [Memory.read] using hne)
    | cons e' rest' =>
      obtain ⟨k', v'⟩ := e'
      rw [Memory.wf_cons] at hn
      obtain ⟨-, -, rfl, hr'⟩ := hn
      have hkk : k = k' := by
        rcases lt_trichotomy k k' with hlt | heq | hgt
        · have := h k
          simp [Memory.read, Nat.ne_of_gt hlt, Memory.read_below hr' (by omega : k < k' + 1)] at this
          exact absurd this hne
        · exact heq
        · have := h k'
          simp [Memory.read, Nat.ne_of_gt hgt, Memory.read_below hr (by omega : k' < k + 1)] at this
          exact absurd this.symm hne
      subst hkk
      congr 1
      refine ih hr hr' fun a => ?_
      by_cases hak : k = a
      · subst hak
        rw [Memory.read_below hr (by omega), Memory.read_below hr' (by omega)]
      · simpa [Memory.read, hak] using h a

end Sys2Proof.Machine
end

