-- ==== Sys2Proof/Laws/State.lean ====
section
/-! SUPPORT. What each field update does to each field, one lemma per field per update, so that no proof unfolds a
record update. -/

namespace Sys2Proof.Machine

section
variable (s : State) (b : Bit)
@[simp] theorem State.setRR_rr : (s.setRR b).rr = b := rfl
@[simp] theorem State.setRR_ien : (s.setRR b).ien = s.ien := rfl
@[simp] theorem State.setRR_ienWritten : (s.setRR b).ienWritten = s.ienWritten := rfl
@[simp] theorem State.setRR_oen : (s.setRR b).oen = s.oen := rfl
@[simp] theorem State.setRR_oenWritten : (s.setRR b).oenWritten = s.oenWritten := rfl
@[simp] theorem State.setRR_pc : (s.setRR b).pc = s.pc := rfl
@[simp] theorem State.setRR_ram : (s.setRR b).ram = s.ram := rfl
@[simp] theorem State.setRR_inp : (s.setRR b).inp = s.inp := rfl
@[simp] theorem State.setRR_out : (s.setRR b).out = s.out := rfl
@[simp] theorem State.setRR_fault : (s.setRR b).fault = s.fault := rfl
@[simp] theorem State.setRR_prog : (s.setRR b).prog = s.prog := rfl
end

section
variable (s : State) (v : Nibble)
@[simp] theorem State.setIen_rr : (s.setIen v).rr = s.rr := rfl
@[simp] theorem State.setIen_ien : (s.setIen v).ien = v := rfl
@[simp] theorem State.setIen_ienWritten : (s.setIen v).ienWritten = true := rfl
@[simp] theorem State.setIen_oen : (s.setIen v).oen = s.oen := rfl
@[simp] theorem State.setIen_oenWritten : (s.setIen v).oenWritten = s.oenWritten := rfl
@[simp] theorem State.setIen_pc : (s.setIen v).pc = s.pc := rfl
@[simp] theorem State.setIen_ram : (s.setIen v).ram = s.ram := rfl
@[simp] theorem State.setIen_inp : (s.setIen v).inp = s.inp := rfl
@[simp] theorem State.setIen_out : (s.setIen v).out = s.out := rfl
@[simp] theorem State.setIen_fault : (s.setIen v).fault = s.fault := rfl
@[simp] theorem State.setIen_prog : (s.setIen v).prog = s.prog := rfl
end

section
variable (s : State) (v : Nibble)
@[simp] theorem State.setOen_rr : (s.setOen v).rr = s.rr := rfl
@[simp] theorem State.setOen_ien : (s.setOen v).ien = s.ien := rfl
@[simp] theorem State.setOen_ienWritten : (s.setOen v).ienWritten = s.ienWritten := rfl
@[simp] theorem State.setOen_oen : (s.setOen v).oen = v := rfl
@[simp] theorem State.setOen_oenWritten : (s.setOen v).oenWritten = true := rfl
@[simp] theorem State.setOen_pc : (s.setOen v).pc = s.pc := rfl
@[simp] theorem State.setOen_ram : (s.setOen v).ram = s.ram := rfl
@[simp] theorem State.setOen_inp : (s.setOen v).inp = s.inp := rfl
@[simp] theorem State.setOen_out : (s.setOen v).out = s.out := rfl
@[simp] theorem State.setOen_fault : (s.setOen v).fault = s.fault := rfl
@[simp] theorem State.setOen_prog : (s.setOen v).prog = s.prog := rfl
end

section
variable (s : State) (n : Nat)
@[simp] theorem State.setPc_rr : (s.setPc n).rr = s.rr := rfl
@[simp] theorem State.setPc_ien : (s.setPc n).ien = s.ien := rfl
@[simp] theorem State.setPc_ienWritten : (s.setPc n).ienWritten = s.ienWritten := rfl
@[simp] theorem State.setPc_oen : (s.setPc n).oen = s.oen := rfl
@[simp] theorem State.setPc_oenWritten : (s.setPc n).oenWritten = s.oenWritten := rfl
@[simp] theorem State.setPc_pc : (s.setPc n).pc = n := rfl
@[simp] theorem State.setPc_ram : (s.setPc n).ram = s.ram := rfl
@[simp] theorem State.setPc_inp : (s.setPc n).inp = s.inp := rfl
@[simp] theorem State.setPc_out : (s.setPc n).out = s.out := rfl
@[simp] theorem State.setPc_fault : (s.setPc n).fault = s.fault := rfl
@[simp] theorem State.setPc_prog : (s.setPc n).prog = s.prog := rfl
end

section
variable (s : State) (a : Nat) (b : Bit)
@[simp] theorem State.setRam_rr : (s.setRam a b).rr = s.rr := rfl
@[simp] theorem State.setRam_ien : (s.setRam a b).ien = s.ien := rfl
@[simp] theorem State.setRam_ienWritten : (s.setRam a b).ienWritten = s.ienWritten := rfl
@[simp] theorem State.setRam_oen : (s.setRam a b).oen = s.oen := rfl
@[simp] theorem State.setRam_oenWritten : (s.setRam a b).oenWritten = s.oenWritten := rfl
@[simp] theorem State.setRam_pc : (s.setRam a b).pc = s.pc := rfl
@[simp] theorem State.setRam_ram : (s.setRam a b).ram = s.ram.writeBit a b := rfl
@[simp] theorem State.setRam_inp : (s.setRam a b).inp = s.inp := rfl
@[simp] theorem State.setRam_out : (s.setRam a b).out = s.out := rfl
@[simp] theorem State.setRam_fault : (s.setRam a b).fault = s.fault := rfl
@[simp] theorem State.setRam_prog : (s.setRam a b).prog = s.prog := rfl
end

section
variable (s : State) (a : Nat) (b : Bit)
@[simp] theorem State.setIn_rr : (s.setIn a b).rr = s.rr := rfl
@[simp] theorem State.setIn_ien : (s.setIn a b).ien = s.ien := rfl
@[simp] theorem State.setIn_ienWritten : (s.setIn a b).ienWritten = s.ienWritten := rfl
@[simp] theorem State.setIn_oen : (s.setIn a b).oen = s.oen := rfl
@[simp] theorem State.setIn_oenWritten : (s.setIn a b).oenWritten = s.oenWritten := rfl
@[simp] theorem State.setIn_pc : (s.setIn a b).pc = s.pc := rfl
@[simp] theorem State.setIn_ram : (s.setIn a b).ram = s.ram := rfl
@[simp] theorem State.setIn_inp : (s.setIn a b).inp = s.inp.writeBit a b := rfl
@[simp] theorem State.setIn_out : (s.setIn a b).out = s.out := rfl
@[simp] theorem State.setIn_fault : (s.setIn a b).fault = s.fault := rfl
@[simp] theorem State.setIn_prog : (s.setIn a b).prog = s.prog := rfl
end

section
variable (s : State) (a : Nat) (b : Bit)
@[simp] theorem State.setOut_rr : (s.setOut a b).rr = s.rr := rfl
@[simp] theorem State.setOut_ien : (s.setOut a b).ien = s.ien := rfl
@[simp] theorem State.setOut_ienWritten : (s.setOut a b).ienWritten = s.ienWritten := rfl
@[simp] theorem State.setOut_oen : (s.setOut a b).oen = s.oen := rfl
@[simp] theorem State.setOut_oenWritten : (s.setOut a b).oenWritten = s.oenWritten := rfl
@[simp] theorem State.setOut_pc : (s.setOut a b).pc = s.pc := rfl
@[simp] theorem State.setOut_ram : (s.setOut a b).ram = s.ram := rfl
@[simp] theorem State.setOut_inp : (s.setOut a b).inp = s.inp := rfl
@[simp] theorem State.setOut_out : (s.setOut a b).out = s.out.writeBit a b := rfl
@[simp] theorem State.setOut_fault : (s.setOut a b).fault = s.fault := rfl
@[simp] theorem State.setOut_prog : (s.setOut a b).prog = s.prog := rfl
end

section
variable (s : State) (f : Fault)
@[simp] theorem State.setFault_rr : (s.setFault f).rr = s.rr := rfl
@[simp] theorem State.setFault_ien : (s.setFault f).ien = s.ien := rfl
@[simp] theorem State.setFault_ienWritten : (s.setFault f).ienWritten = s.ienWritten := rfl
@[simp] theorem State.setFault_oen : (s.setFault f).oen = s.oen := rfl
@[simp] theorem State.setFault_oenWritten : (s.setFault f).oenWritten = s.oenWritten := rfl
@[simp] theorem State.setFault_pc : (s.setFault f).pc = s.pc := rfl
@[simp] theorem State.setFault_ram : (s.setFault f).ram = s.ram := rfl
@[simp] theorem State.setFault_inp : (s.setFault f).inp = s.inp := rfl
@[simp] theorem State.setFault_out : (s.setFault f).out = s.out := rfl
@[simp] theorem State.setFault_fault : (s.setFault f).fault = some f := rfl
@[simp] theorem State.setFault_prog : (s.setFault f).prog = s.prog := rfl
end

end Sys2Proof.Machine
end

