-- ==== Sys2Proof/Laws/Ops.lean ====
section
/-! SUPPORT. What each shared operation can do, said once. -/

namespace Sys2Proof.Machine

/-! ### The operand readings -/

/-- The domain and the index of a data address, from its number (spec 20_memory.md R28). -/
theorem domain_index (d : Nibble) :
    (8 ≤ d.toNat ∧ domainOf d = .ram ∧ indexOf d = d.toNat - 8) ∨
    (d.toNat < 8 ∧ domainOf d = .pins ∧ indexOf d = d.toNat) := by
  revert d; decide

theorem indexOf_lt (d : Nibble) : indexOf d < Config.cellCount := by
  revert d; decide

/-- The branch target, one case per direction (spec 44_control.md R97). -/
theorem branchTarget_cases (pc : Nat) (d : Nibble) :
    (8 ≤ d.toNat ∧ branchTarget pc d = ((pc + 1 + 4 * (d.toNat - 7) : Nat) : Int)) ∨
    (d.toNat < 8 ∧ branchTarget pc d = (pc : Int) + 1 - 4 * ((d.toNat : Int) + 1)) := by
  rcases Nat.lt_or_ge d.toNat 8 with h | h
  · refine .inr ⟨h, ?_⟩
    have : ¬ (8 : Int) ≤ (d.toNat : Int) := by omega
    simp only [branchTarget, branchDisplacement, if_neg this]
    omega
  · refine .inl ⟨h, ?_⟩
    have : (8 : Int) ≤ (d.toNat : Int) := by omega
    simp only [branchTarget, branchDisplacement, if_pos this]
    omega

/-! ### The data space -/

/-- What a read can answer. -/
theorem memRead_cases (d : Nibble) (s : State) :
    (d = 0x8#4 ∧ memRead d s = .error (.addrZero d)) ∨
    (8 < d.toNat ∧ memRead d s = .ok (s.ram.readBit (d.toNat - 8))) ∨
    (d.toNat < 8 ∧ memRead d s = .ok (s.inp.readBit d.toNat)) := by
  rcases domain_index d with ⟨h, hd, hi⟩ | ⟨h, hd, hi⟩
  · rcases Nat.lt_or_ge 8 d.toNat with h8 | h8
    · refine .inr (.inl ⟨h8, ?_⟩)
      have : d.toNat - 8 ≠ 0 := by omega
      simp [memRead, hd, hi, this]
    · have : d = 0x8#4 := BitVec.eq_of_toNat_eq (by simp; omega)
      subst this
      exact .inl ⟨rfl, by simp [memRead, hd, hi]⟩
  · exact .inr (.inr ⟨h, by simp [memRead, hd, hi]⟩)

/-- What a write can answer. -/
theorem memWrite_cases (d : Nibble) (v : Bit) (s : State) :
    ((d = 0x8#4 ∨ d = 0x0#4) ∧ memWrite d v s = .error (.addrZero d)) ∨
    (8 < d.toNat ∧ memWrite d v s = .ok (s.setRam (d.toNat - 8) v)) ∨
    (0 < d.toNat ∧ d.toNat < 8 ∧ memWrite d v s = .ok (s.setOut d.toNat v)) := by
  rcases domain_index d with ⟨h, hd, hi⟩ | ⟨h, hd, hi⟩
  · rcases Nat.lt_or_ge 8 d.toNat with h8 | h8
    · refine .inr (.inl ⟨h8, ?_⟩)
      have : d.toNat - 8 ≠ 0 := by omega
      simp [memWrite, hd, hi, this]
    · have : d = 0x8#4 := BitVec.eq_of_toNat_eq (by simp; omega)
      subst this
      exact .inl ⟨.inl rfl, by simp [memWrite, hi]⟩
  · rcases Nat.eq_zero_or_pos d.toNat with h0 | h0
    · have : d = 0x0#4 := BitVec.eq_of_toNat_eq (by simp [h0])
      subst this
      exact .inl ⟨.inr rfl, by simp [memWrite, hi]⟩
    · refine .inr (.inr ⟨h0, h, ?_⟩)
      have : d.toNat ≠ 0 := by omega
      simp [memWrite, hd, hi, this]

/-! ### Ends of an instruction -/

/-- A branch either raises the underflow fault or moves `pc`. -/
theorem branchTo_cases (target : Int) (s : State) :
    (target < 0 ∧ branchTo target s = .next (s.setFault (.pcUnderflow target))) ∨
    (0 ≤ target ∧ branchTo target s = .next (s.setPc target.toNat)) := by
  rcases lt_or_ge target 0 with h | h
  · exact .inl ⟨h, by simp [branchTo, raise, h]⟩
  · exact .inr ⟨h, by simp [branchTo, not_lt.mpr h]⟩

/-- What a load or logic instruction can do: raise the fault at `0x8`, or give `RR` a new value from the selected
bit. -/
theorem loadLogic_cases (alu : Bit → Bit → Bit) (d : Nibble) (s : State) :
    (d = 0x8#4 ∧ loadLogic alu d s = .next (s.setFault (.addrZero d))) ∨
    (8 < d.toNat ∧
      loadLogic alu d s = .next ((s.setRR (alu s.rr (s.ram.readBit (d.toNat - 8)))).setPc (s.pc + 1))) ∨
    (d.toNat < 8 ∧
      loadLogic alu d s = .next ((s.setRR (alu s.rr (s.inp.readBit d.toNat))).setPc (s.pc + 1))) := by
  rcases memRead_cases d s with ⟨h, hm⟩ | ⟨h, hm⟩ | ⟨h, hm⟩
  · exact .inl ⟨h, by simp [loadLogic, hm, raise]⟩
  · exact .inr (.inl ⟨h, by simp [loadLogic, hm, advance]⟩)
  · exact .inr (.inr ⟨h, by simp [loadLogic, hm, advance]⟩)

/-- What a store can do: raise the fault at `0x0` and `0x8`, or write one RAM cell or one output pin. -/
theorem storeBit_cases (d : Nibble) (v : Bit) (s : State) :
    ((d = 0x8#4 ∨ d = 0x0#4) ∧ storeBit d v s = .next (s.setFault (.addrZero d))) ∨
    (8 < d.toNat ∧ storeBit d v s = .next ((s.setRam (d.toNat - 8) v).setPc (s.pc + 1))) ∨
    (0 < d.toNat ∧ d.toNat < 8 ∧ storeBit d v s = .next ((s.setOut d.toNat v).setPc (s.pc + 1))) := by
  rcases memWrite_cases d v s with ⟨h, hm⟩ | ⟨h, hm⟩ | ⟨h, h', hm⟩
  · exact .inl ⟨h, by simp [storeBit, hm, raise]⟩
  · exact .inr (.inl ⟨h, by simp [storeBit, hm, advance]⟩)
  · exact .inr (.inr ⟨h, h', by simp [storeBit, hm, advance]⟩)

end Sys2Proof.Machine
end

