-- ==== Sys2Proof/Laws/PerInstr.lean ====
section
/-! SUPPORT. Families of statements made per instruction. -/

namespace Sys2Proof.Laws

/-- The word of an instruction is well-formed input of the decoder: its fields are the instruction's opcode and
operand, and as a number it is `16*op + d` (spec 30_encoding.md R46). -/
def EncodedFields.Statement (i : Instr) : Prop :=
  i.wellFormed = true ∧ opcodeField (encode i) = i.opcode ∧ operandField (encode i) = i.operand ∧
    (encode i).toNat = 16 * i.opcode.toNat + i.operand.toNat

theorem EncodedFields.nop (d : Nibble) : EncodedFields.Statement (.nop d) :=
  ⟨rfl, opcodeField_packWord _ _, operandField_packWord _ _, packWord_toNat _ _⟩

theorem EncodedFields.ld (d : Nibble) : EncodedFields.Statement (.ld d) :=
  ⟨rfl, opcodeField_packWord _ _, operandField_packWord _ _, packWord_toNat _ _⟩

theorem EncodedFields.ldc (d : Nibble) : EncodedFields.Statement (.ldc d) :=
  ⟨rfl, opcodeField_packWord _ _, operandField_packWord _ _, packWord_toNat _ _⟩

theorem EncodedFields.and (d : Nibble) : EncodedFields.Statement (.and d) :=
  ⟨rfl, opcodeField_packWord _ _, operandField_packWord _ _, packWord_toNat _ _⟩

theorem EncodedFields.andc (d : Nibble) : EncodedFields.Statement (.andc d) :=
  ⟨rfl, opcodeField_packWord _ _, operandField_packWord _ _, packWord_toNat _ _⟩

theorem EncodedFields.or (d : Nibble) : EncodedFields.Statement (.or d) :=
  ⟨rfl, opcodeField_packWord _ _, operandField_packWord _ _, packWord_toNat _ _⟩

theorem EncodedFields.orc (d : Nibble) : EncodedFields.Statement (.orc d) :=
  ⟨rfl, opcodeField_packWord _ _, operandField_packWord _ _, packWord_toNat _ _⟩

theorem EncodedFields.xnor (d : Nibble) : EncodedFields.Statement (.xnor d) :=
  ⟨rfl, opcodeField_packWord _ _, operandField_packWord _ _, packWord_toNat _ _⟩

theorem EncodedFields.sto (d : Nibble) : EncodedFields.Statement (.sto d) :=
  ⟨rfl, opcodeField_packWord _ _, operandField_packWord _ _, packWord_toNat _ _⟩

theorem EncodedFields.stoc (d : Nibble) : EncodedFields.Statement (.stoc d) :=
  ⟨rfl, opcodeField_packWord _ _, operandField_packWord _ _, packWord_toNat _ _⟩

theorem EncodedFields.ien (d : Nibble) : EncodedFields.Statement (.ien d) :=
  ⟨rfl, opcodeField_packWord _ _, operandField_packWord _ _, packWord_toNat _ _⟩

theorem EncodedFields.oen (d : Nibble) : EncodedFields.Statement (.oen d) :=
  ⟨rfl, opcodeField_packWord _ _, operandField_packWord _ _, packWord_toNat _ _⟩

theorem EncodedFields.jmp (d : Nibble) : EncodedFields.Statement (.jmp d) :=
  ⟨rfl, opcodeField_packWord _ _, operandField_packWord _ _, packWord_toNat _ _⟩

theorem EncodedFields.rtn (d : Nibble) : EncodedFields.Statement (.rtn d) :=
  ⟨rfl, opcodeField_packWord _ _, operandField_packWord _ _, packWord_toNat _ _⟩

theorem EncodedFields.skz (d : Nibble) : EncodedFields.Statement (.skz d) :=
  ⟨rfl, opcodeField_packWord _ _, operandField_packWord _ _, packWord_toNat _ _⟩

theorem EncodedFields.nopf (d : Nibble) : EncodedFields.Statement (.nopf d) :=
  ⟨rfl, opcodeField_packWord _ _, operandField_packWord _ _, packWord_toNat _ _⟩

end Sys2Proof.Laws
end

