-- ==== Sys2Proof/Laws/Step.lean ====
section
/-! SUPPORT. What a step and each instruction can do, and the small lemmas of the host's actions. -/

namespace Sys2Proof.Machine

/-- A step that answers a next state fetched a word in a fault-free state and executed it. -/
theorem step_next {s t : State} (h : step s = .next t) :
    s.fault = none ∧ ∃ w, s.prog[s.pc]? = some w ∧ exec (decode w) s = .next t := by
  unfold step at h
  cases hf : s.fault with
  | some f => simp [hf] at h
  | none =>
    cases hw : fetch s with
    | none => simp [hf, hw] at h
    | some w => exact ⟨rfl, w, hw, by simpa [hf, hw] using h⟩

/-- A step is refused because of the mark or because the run has ended, and for no other reason. -/
theorem step_refused {s : State} {r : Refusal} (h : step s = .refused r) (hx : ∀ i, exec i s ≠ .refused r) :
    (∃ f, s.fault = some f ∧ r = .machineFaulted f) ∨ (s.fault = none ∧ s.prog[s.pc]? = none ∧ r = .runEnded) := by
  unfold step at h
  cases hf : s.fault with
  | some f => exact .inl ⟨f, rfl, by simpa [hf] using h.symm⟩
  | none =>
    cases hw : fetch s with
    | none => exact .inr ⟨rfl, hw, by simpa [hf, hw] using h.symm⟩
    | some w => exact absurd (by simpa [hf, hw] using h) (hx _)

/-! ### Each instruction over its shared operation -/

theorem exec_ld (d : Nibble) (s : State) : exec (.ld d) s = loadLogic (fun _ sel => sel) d s := rfl
theorem exec_ldc (d : Nibble) (s : State) : exec (.ldc d) s = loadLogic (fun _ sel => bitNot sel) d s := rfl
theorem exec_and (d : Nibble) (s : State) : exec (.and d) s = loadLogic (fun rr sel => bitAnd rr sel) d s := rfl
theorem exec_andc (d : Nibble) (s : State) : exec (.andc d) s = loadLogic (fun rr sel => bitAnd rr (bitNot sel)) d s := rfl
theorem exec_or (d : Nibble) (s : State) : exec (.or d) s = loadLogic (fun rr sel => bitOr rr sel) d s := rfl
theorem exec_orc (d : Nibble) (s : State) : exec (.orc d) s = loadLogic (fun rr sel => bitOr rr (bitNot sel)) d s := rfl
theorem exec_xnor (d : Nibble) (s : State) : exec (.xnor d) s = loadLogic (fun rr sel => bitXnor rr sel) d s := rfl
theorem exec_sto (d : Nibble) (s : State) : exec (.sto d) s = storeBit d s.rr s := rfl
theorem exec_stoc (d : Nibble) (s : State) : exec (.stoc d) s = storeBit d (bitNot s.rr) s := rfl
theorem exec_jmp (d : Nibble) (s : State) : exec (.jmp d) s = branchTo (branchTarget s.pc d) s := rfl

/-- What an instruction can do to a state. -/
inductive Effect (s : State) : State → Prop where
  /-- A fault was raised: the mark is set and nothing else changes. -/
  | raised (f : Fault) : Effect s (s.setFault f)
  /-- Only `pc` moved. -/
  | moved (n : Nat) : Effect s (s.setPc n)
  /-- `RR` took a value. -/
  | loaded (b : Bit) : Effect s ((s.setRR b).setPc (s.pc + 1))
  /-- One RAM cell took a bit. -/
  | storedRam (a : Nat) (b : Bit) (ha : 0 < a ∧ a < 8) : Effect s ((s.setRam a b).setPc (s.pc + 1))
  /-- One output pin took a bit. -/
  | storedOut (a : Nat) (b : Bit) (ha : 0 < a ∧ a < 8) : Effect s ((s.setOut a b).setPc (s.pc + 1))
  /-- `IEN` took a nibble. -/
  | setIen (v : Nibble) : Effect s ((s.setIen v).setPc (s.pc + 1))
  /-- `OEN` took a nibble. -/
  | setOen (v : Nibble) : Effect s ((s.setOen v).setPc (s.pc + 1))

theorem loadLogic_effect (alu : Bit → Bit → Bit) (d : Nibble) (s : State) :
    ∃ t, loadLogic alu d s = .next t ∧ Effect s t := by
  rcases loadLogic_cases alu d s with ⟨-, h⟩ | ⟨-, h⟩ | ⟨-, h⟩
  · exact ⟨_, h, .raised _⟩
  · exact ⟨_, h, .loaded _⟩
  · exact ⟨_, h, .loaded _⟩

theorem storeBit_effect (d : Nibble) (v : Bit) (s : State) :
    ∃ t, storeBit d v s = .next t ∧ Effect s t := by
  have hd : d.toNat < 16 := d.isLt
  rcases storeBit_cases d v s with ⟨-, h⟩ | ⟨h8, h⟩ | ⟨h0, h8, h⟩
  · exact ⟨_, h, .raised _⟩
  · exact ⟨_, h, .storedRam _ _ (by omega)⟩
  · exact ⟨_, h, .storedOut _ _ (by omega)⟩

theorem branchTo_effect (target : Int) (s : State) : ∃ t, branchTo target s = .next t ∧ Effect s t := by
  rcases branchTo_cases target s with ⟨-, h⟩ | ⟨-, h⟩
  · exact ⟨_, h, .raised _⟩
  · exact ⟨_, h, .moved _⟩

/-- Every instruction answers a next state, and that state is one of the effects above. -/
theorem exec_effect (i : Instr) (s : State) : ∃ t, exec i s = .next t ∧ Effect s t := by
  cases i with
  | nop d | nopf d | rtn d | skz d => exact ⟨_, rfl, .moved _⟩
  | ld d => rw [exec_ld]; exact loadLogic_effect _ d s
  | ldc d => rw [exec_ldc]; exact loadLogic_effect _ d s
  | and d => rw [exec_and]; exact loadLogic_effect _ d s
  | andc d => rw [exec_andc]; exact loadLogic_effect _ d s
  | or d => rw [exec_or]; exact loadLogic_effect _ d s
  | orc d => rw [exec_orc]; exact loadLogic_effect _ d s
  | xnor d => rw [exec_xnor]; exact loadLogic_effect _ d s
  | sto d | stoc d => exact storeBit_effect d _ s
  | ien d => exact ⟨_, rfl, .setIen _⟩
  | oen d => exact ⟨_, rfl, .setOen _⟩
  | jmp d => exact branchTo_effect _ s

/-- The reply to an accepted request holds its state. -/
@[simp] theorem accepted_state (s : State) : (accepted s).state = s := rfl

/-- The reply to a refused request holds the state as it was. -/
@[simp] theorem declined_state (s : State) (r : Refusal) : (declined s r).state = s := rfl

@[simp] theorem load_prog (p : List Word) : (load p).prog = p := rfl

/-- What `setInput` answers when it is not refused. -/
theorem setInput_ok {pin value : Nat} {s t : State} (h : setInput pin value s = .ok t) :
    pin < 8 ∧ value < 2 ∧ t = s.setIn pin (decide (value = 1)) := by
  unfold setInput at h
  by_cases hp : pin < 8
  · by_cases hv : value < 2
    · exact ⟨hp, hv, by simpa [pinIndexOk, pinValueOk, Config.cellCount, hp, hv] using h.symm⟩
    · simp [pinIndexOk, pinValueOk, Config.cellCount, hp, hv] at h
  · simp [pinIndexOk, Config.cellCount, hp] at h

end Sys2Proof.Machine
end

