-- ==== Sys2Proof/Tests/Slice0.lean ====
section
/-! SUPPORT. The model's own tests. Expected results are the spec's: the worked words of its rules and the vectors of
95_test_vectors.md, named in each section; and a witness for the hypotheses of every statement that has some. -/

namespace Sys2Proof.Tests

open Sys2Proof Sys2Proof.Machine

/-! ### Decoding: one word per row, bits written out from the opcode table (V1 to V13, R83 to R99) -/

theorem test_decode_nop : decodeTableWord 8 0b00000000 = some (.nop 0x0#4) := by decide
theorem test_decode_ld : decodeTableWord 8 0b00011001 = some (.ld 0x9#4) := by decide
theorem test_decode_ldc : decodeTableWord 8 0b00100001 = some (.ldc 0x1#4) := by decide
theorem test_decode_and : decodeTableWord 8 0b00110000 = some (.and 0x0#4) := by decide
theorem test_decode_andc : decodeTableWord 8 0b01000010 = some (.andc 0x2#4) := by decide
theorem test_decode_or : decodeTableWord 8 0b01011001 = some (.or 0x9#4) := by decide
theorem test_decode_orc : decodeTableWord 8 0b01100111 = some (.orc 0x7#4) := by decide
theorem test_decode_xnor : decodeTableWord 8 0b01111111 = some (.xnor 0xF#4) := by decide
theorem test_decode_sto : decodeTableWord 8 0b10000111 = some (.sto 0x7#4) := by decide
theorem test_decode_stoc : decodeTableWord 8 0b10011100 = some (.stoc 0xC#4) := by decide
theorem test_decode_ien : decodeTableWord 8 0b10100101 = some (.ien 0x5#4) := by decide
theorem test_decode_oen : decodeTableWord 8 0b10111110 = some (.oen 0xE#4) := by decide
theorem test_decode_jmp : decodeTableWord 8 0b11001011 = some (.jmp 0xB#4) := by decide
theorem test_decode_rtn : decodeTableWord 8 0b11010001 = some (.rtn 0x1#4) := by decide
theorem test_decode_skz : decodeTableWord 8 0b11100001 = some (.skz 0x1#4) := by decide
theorem test_decode_nopf : decodeTableWord 8 0b11111111 = some (.nopf 0xF#4) := by decide
theorem test_encode_xnor : encode (.xnor 0x2#4) = 0x72#8 := by decide
theorem test_decode_empty_stream : decodeNext [] = .error .noWord := by decide

/-! ### Well-formedness: one ill-formed term per check, refused. There is none for `Instr.wellFormed`: every
operand is legal for every opcode (R53). -/

theorem test_pin_out_of_range : pinIndexOk 8 = false := by decide
theorem test_pin_value_no_bit : pinValueOk 2 = false := by decide
theorem test_specifier_above_15 : specOk 16 = false := by decide
theorem test_table_literal_above_15 : macroTableOk [("m".toList, [⟨"ld".toList, [16]⟩])] = false := by decide
theorem test_memory_unsorted : Memory.wf 1 [(3, 0x01#8), (2, 0x01#8)] = false := by decide
theorem test_memory_lists_zero : Memory.wf 1 [(3, 0x00#8)] = false := by decide
theorem test_memory_cell_zero : Memory.wf 1 [(0, 0x01#8)] = false := by decide

/-! ### One step of each instruction -/

/-- The next state of an outcome. -/
def nextOf : StepOutcome → Option State
  | .next t => some t
  | _ => none

/-- A state in the middle of a ten-word program. -/
def sample (rr : Bit) (pc : Nat) : State :=
  { State.reset with rr := rr, pc := pc, prog := List.replicate 10 0x00#8 }

/-- What a step on the placed word `w` leaves, seen through `view`. -/
def stepOn {α : Type} (s : State) (w : Nat) (view : State → α) : Option α :=
  (nextOf (step (s.withFetchWord 8 w))).map view

/-- V14: `01` at `pc = 4`. -/
theorem test_nop : stepOn (sample true 4) 0x01 (fun t => (t.rr, t.pc, t.continueSignal)) = some (true, 5, true) := by decide
/-- V16: `08` at the last word: the run has ended, and no fault. -/
theorem test_nop_at_end : stepOn (sample true 9) 0x08 (fun t => (t.pc, t.runEnded, t.fault)) = some (10, true, none) := by decide
/-- V15. -/
theorem test_nopf : stepOn (sample true 4) 0xF7 (fun t => (t.rr, t.pc)) = some (true, 5) := by decide
/-- V24: `IN[0]` is 1 at reset. -/
theorem test_ld_pin0 : stepOn State.reset 0x10 (fun t => (t.rr, t.pc, t.fault)) = some (true, 1, none) := by decide
/-- V27: bit 3 set reads RAM, not the pin of that index. -/
theorem test_ld_ram : stepOn ((sample true 0).setIn 3 true) 0x1B (fun t => t.rr) = some false := by decide
/-- V25. -/
theorem test_ldc_pin0 : stepOn State.reset 0x20 (fun t => t.rr) = some false := by decide
/-- The example of R84: `RAM[3] = 0`, word `2B`. -/
theorem test_ldc_ram : stepOn (sample false 0) 0x2B (fun t => t.rr) = some true := by decide
/-- S4. -/
theorem test_and_pin0 : stepOn State.reset 0x30 (fun t => (t.rr, t.pc)) = some (false, 1) := by decide
/-- V19, `(1, 1)`. -/
theorem test_and_both : stepOn (sample true 0) 0x30 (fun t => t.rr) = some true := by decide
/-- V33. -/
theorem test_andc : stepOn (sample true 0) 0x49 (fun t => t.rr) = some true := by decide
/-- V20, `(1, 1)`. -/
theorem test_andc_set : stepOn (sample true 0) 0x40 (fun t => t.rr) = some false := by decide
/-- The example of R87: `RAM[1] = 1`, word `59`. -/
theorem test_or : stepOn ((sample false 0).setRam 1 true) 0x59 (fun t => t.rr) = some true := by decide
/-- V34. -/
theorem test_orc_set : stepOn ((sample false 0).setIn 7 true) 0x67 (fun t => t.rr) = some false := by decide
/-- The example of R88. -/
theorem test_orc_clear : stepOn (sample false 0) 0x67 (fun t => t.rr) = some true := by decide
/-- V32. -/
theorem test_xnor_equal : stepOn ((sample true 0).setRam 1 true) 0x79 (fun t => t.rr) = some true := by decide
/-- The example of R89: `RR = 1`, `IN[2] = 0`, word `72`. -/
theorem test_xnor_differ : stepOn (sample true 0) 0x72 (fun t => t.rr) = some false := by decide
/-- V35: `RR` to `OUT[1]`. -/
theorem test_sto_out : stepOn (sample true 4) 0x81 (fun t => (t.out, t.ram, t.rr)) = some ([(1, 0x01#8)], [], true) := by decide
/-- V40: `OUT[0]` does not exist. -/
theorem test_sto_fault : stepOn (sample true 4) 0x80 (fun t => (t.fault, t.out, t.pc)) = some (some (.addrZero 0x0#4), [], 4) := by decide
/-- V37: the complement is stored, `RR` kept. -/
theorem test_stoc_out : stepOn ((sample true 0).setOut 7 true) 0x97 (fun t => (t.out, t.rr)) = some ([], true) := by decide
/-- V38. -/
theorem test_stoc_ram : stepOn (sample false 0) 0x9F (fun t => t.ram) = some [(7, 0x01#8)] := by decide
/-- V45: unwritten before, 0 after. -/
theorem test_ien_zero : stepOn State.reset 0xA0 (fun t => (t.dumpIen, t.dumpOen)) = some (some 0x0#4, none) := by decide
/-- V48. -/
theorem test_ien_all : stepOn (sample true 0) 0xAF (fun t => t.dumpIen) = some (some 0xF#4) := by decide
/-- V49: no data address, no fault. -/
theorem test_oen : stepOn (sample true 0) 0xB8 (fun t => (t.dumpOen, t.fault)) = some (some 0x8#4, none) := by decide
/-- V51: the smallest loop. -/
theorem test_jmp_back : stepOn (sample true 3) 0xC0 (fun t => (t.pc, t.fault)) = some (0, none) := by decide
/-- V52: below word 0. -/
theorem test_jmp_underflow : stepOn (sample true 2) 0xC0 (fun t => (t.pc, t.fault)) = some (2, some (.pcUnderflow (-1))) := by decide
/-- V57: the largest `pc`, `L + 32`. -/
theorem test_jmp_far : stepOn (sample true 9) 0xCF (fun t => (t.pc, t.continueSignal)) = some (42, false) := by decide
/-- V59. -/
theorem test_rtn : stepOn (sample true 4) 0xD1 (fun t => t.pc) = some 6 := by decide
/-- V63: skip taken, operand ignored. -/
theorem test_skz_taken : stepOn (sample false 1) 0xE9 (fun t => t.pc) = some 3 := by decide
/-- V62. -/
theorem test_skz_not_taken : stepOn (sample true 1) 0xE1 (fun t => t.pc) = some 2 := by decide
/-- V29, and P5 (a): a read of `RAM[0]`. -/
theorem test_ld_fault : stepOn (sample true 4) 0x18 (fun t => (t.fault, t.rr, t.pc)) = some (some (.addrZero 0x8#4), true, 4) := by decide

/-! ### The host (V65 to V75) -/

theorem test_ended_refuses : (requestStep (load [])).refusal = some .runEnded ∧ (requestStep (load [])).goesOn = false := by decide
theorem test_faulted_refuses :
    (requestStep (State.reset.setFault (.addrZero 0x8#4))).refusal = some (.machineFaulted (.addrZero 0x8#4)) := by decide
theorem test_load_text : parseProgram "30A0B01181".toList = .ok [0x30#8, 0xA0#8, 0xB0#8, 0x11#8, 0x81#8] := by decide
theorem test_load_odd : parseProgram "30A".toList = .error .oddProgramText := by decide
theorem test_load_bad_digit : parseProgram "3G".toList = .error (.badProgramDigit 'G') := by decide
theorem test_load_case : parseProgram "c0".toList = parseProgram "C0".toList := by decide
theorem test_set_input : (hostAct (.setInput 3 1) State.reset).state.inp = [(0, 0x01#8), (3, 0x01#8)] := by decide
theorem test_set_input_pin0 : (hostAct (.setInput 0 0) State.reset).state.inp = [] := by decide
theorem test_set_input_bad_pin : (hostAct (.setInput 8 1) State.reset).refusal = some (.badPin 8) := by decide
theorem test_set_input_bad_value : (hostAct (.setInput 1 2) State.reset).refusal = some (.badPinValue 2) := by decide
theorem test_read_outputs_reset :
    readOutputs State.reset = ⟨[1, 2, 3, 4, 5, 6, 7].map (·, false), false, none, none, [1, 2, 3, 4, 5, 6, 7].map (·, false)⟩ := by
  decide
theorem test_output_text : outputText (2, true) = "2:1".toList := by decide

/-! ### The assembler (S1 to S3, V76 to V95), with the fixture table of P6 -/

/-- The fixture table of P6. -/
def fixture : AsmConfig where
  macros := [("xor".toList, [⟨"xnor".toList, [-1]⟩, ⟨"ldc".toList, [0]⟩]),
    ("jnz".toList, [⟨"skz".toList, []⟩, ⟨"jmp".toList, [-1]⟩]),
    ("jz".toList, [⟨"skz".toList, []⟩, ⟨"ret".toList, []⟩, ⟨"jmp".toList, [-1]⟩])]
  depthMax := 4

/-- The text a source assembles to. -/
def assembled (t : String) : Except AsmFailure Text := assembleProgram fixture t.toList

/-- One line under a table of one's own. -/
def expanded (m : MacroTable) (t : String) : Except AsmFailure Text := assembleProgram ⟨m, 4⟩ t.toList

theorem test_asm_ld : assembled "ld 1" = .ok "11".toList := by decide
theorem test_asm_ldc : assembled "ldc 1" = .ok "21".toList := by decide
theorem test_asm_xor : assembled "xor 2" = .ok "7220".toList := by decide
theorem test_asm_nop : assembled "nop" = .ok "01".toList := by decide
theorem test_asm_skz_operand : assembled "skz 0" = .ok "E0".toList := by decide
theorem test_asm_not_rr : assembled "ld !rr" = .ok "10".toList := by decide
theorem test_asm_case : assembled "sto f" = .ok "8F".toList ∧ assembled "sto F" = .ok "8F".toList := by decide
theorem test_asm_comment : assembled "jmp 0 ; loop" = .ok "C0".toList := by decide
theorem test_asm_blank : assembled "   " = .ok [] ∧ assembled "; only a comment" = .ok [] := by decide
theorem test_asm_two_lines : assembled "ld 1\nldc 1" = .ok "1121".toList := by decide
theorem test_asm_jz : assembled "jz 8" = .ok "E1D1C8".toList := by decide
theorem test_asm_missing_argument : assembled "ld" = .error (.atLine 1 .tooFewArguments) := by decide
theorem test_asm_extra_argument : assembled "ld 1 2" = .error (.atLine 1 .tooManyArguments) := by decide
theorem test_asm_unknown : assembled "nop\n\nfoo 1" = .error (.atLine 3 .unknownInstruction) := by decide
theorem test_asm_bad_operand : assembled "ld 10" = .error (.atLine 1 .badOperand) ∧ assembled "ld g" = .error (.atLine 1 .badOperand) := by decide
theorem test_macro_back_reference_out_of_range :
    expanded [("m".toList, [⟨"ld".toList, [-2]⟩])] "m 3" = .error (.atLine 1 .tooFewArguments) := by decide
theorem test_macro_two_specifiers :
    expanded [("m".toList, [⟨"ld".toList, [1, 2]⟩])] "m 3" = .error (.atLine 1 .tooManyArguments) := by decide
theorem test_macro_unknown_target :
    expanded [("m".toList, [⟨"bar".toList, [1]⟩])] "m 3" = .error (.atLine 1 .unknownMacroTarget) := by decide
theorem test_macro_cycle :
    expanded [("a".toList, [⟨"b".toList, [-1]⟩]), ("b".toList, [⟨"a".toList, [-1]⟩])] "a 1" =
      .error (.atLine 1 .macroDepthExceeded) := by decide
theorem test_macro_fresh_actuals :
    expanded [("two".toList, [⟨"one".toList, [-1]⟩, ⟨"one".toList, [5]⟩]), ("one".toList, [⟨"ld".toList, [-1]⟩])] "two 3" =
      .ok "1315".toList := by decide
/-- R68, R73: the refused table's `BadOperand` carries the position of the line that invokes a macro of it. -/
theorem test_macro_table_refused :
    expanded [("m".toList, [⟨"ld".toList, [-1]⟩]), ("k".toList, [⟨"ld".toList, [16]⟩])] "nop\nm 3" =
      .error (.atLine 2 .badOperand) := by decide
/-- R67: an actual that is no digit fails though no step refers to it. -/
theorem test_macro_unused_actual :
    expanded [("m".toList, [⟨"nop".toList, []⟩])] "m 3" = .ok "01".toList ∧
      expanded [("m".toList, [⟨"nop".toList, []⟩])] "m g" = .error (.atLine 1 .badOperand) ∧
      expanded [("m".toList, [⟨"nop".toList, []⟩])] "m !rr" = .error (.atLine 1 .badOperand) := by decide

/-! ### Witnesses: concrete values that meet the hypotheses of a statement together, clause by clause, at the boundaries
of their ranges -/

theorem witness_StepRunsDecodedInstruction :
    (load [0x11#8]).fault = none ∧ (load [0x11#8]).prog[(load [0x11#8]).pc]? = some 0x11#8 ∧
      decode 0x11#8 = .ld 0x1#4 ∧ (Instr.ld 0x1#4).wellFormed = true := by decide
theorem witness_DecodeEncodeAgree : (Instr.jmp 0x7#4).wellFormed = true := by decide
theorem witness_PlacedWordRunsNext : 0 < 256 ∧ 255 < 256 := by decide
theorem witness_NopOnlyAdvances :
    (sample true 9).fault = none ∧ (sample true 9).pc + 1 = (sample true 9).prog.length ∧
      hexDigit '0' = some 0x0#4 ∧ hexDigit '9' = some 0x9#4 ∧ hexDigit 'A' = some 0xA#4 ∧ hexDigit 'F' = some 0xF#4 ∧
      hexDigit 'a' = some 0xA#4 ∧ hexDigit 'f' = some 0xF#4 := by decide
theorem witness_NopfOnlyAdvances :
    (sample false 9).fault = none ∧ (sample false 9).pc + 1 = (sample false 9).prog.length := by decide
theorem witness_OpcodeFifteenIsNopAndNeverAssembled :
    assembleWords fixture "xor 2".toList = .ok [0x72#8, 0x20#8] := by decide

/-- The addresses the load statements exclude and the ones next to it; one witness for the seven statements. -/
theorem witness_LdLoadsSelectedBit : (0x0#4 : Nibble) ≠ 0x8#4 ∧ (0x7#4 : Nibble) ≠ 0x8#4 ∧ (0x9#4 : Nibble) ≠ 0x8#4 ∧ (0xF#4 : Nibble) ≠ 0x8#4 := by decide
theorem witness_LdcLoadsComplement : (0x7#4 : Nibble) ≠ 0x8#4 ∧ (0x9#4 : Nibble) ≠ 0x8#4 := by decide
theorem witness_AndConjoinsSelectedBit : (0x7#4 : Nibble) ≠ 0x8#4 ∧ (0x9#4 : Nibble) ≠ 0x8#4 := by decide
theorem witness_AndcConjoinsComplement : (0x7#4 : Nibble) ≠ 0x8#4 ∧ (0x9#4 : Nibble) ≠ 0x8#4 := by decide
theorem witness_OrDisjoinsSelectedBit : (0x7#4 : Nibble) ≠ 0x8#4 ∧ (0x9#4 : Nibble) ≠ 0x8#4 := by decide
theorem witness_OrcDisjoinsComplement : (0x7#4 : Nibble) ≠ 0x8#4 ∧ (0x9#4 : Nibble) ≠ 0x8#4 := by decide
theorem witness_XnorComparesSelectedBit : (0x7#4 : Nibble) ≠ 0x8#4 ∧ (0x9#4 : Nibble) ≠ 0x8#4 := by decide
theorem witness_LoadLogicFaultsOnRamZero :
    Instr.xnor ∈ [Instr.ld, Instr.ldc, Instr.and, Instr.andc, Instr.or, Instr.orc, Instr.xnor] ∧ (0x7#4 : Nibble) ≠ 0x8#4 ∧ (0x9#4 : Nibble) ≠ 0x8#4 := by
  exact ⟨by simp, by decide, by decide⟩
theorem witness_LoadLogicFrame :
    Instr.orc ∈ [Instr.ld, Instr.ldc, Instr.and, Instr.andc, Instr.or, Instr.orc, Instr.xnor] ∧
      (nextOf (exec (.orc 0x7#4) State.reset)).isSome = true ∧ (nextOf (exec (.orc 0x8#4) State.reset)).isSome = true := by
  exact ⟨by simp, by decide, by decide⟩
theorem witness_StoWritesAccumulator :
    8 < (0x9#4 : Nibble).toNat ∧ 8 < (0xF#4 : Nibble).toNat ∧ (0 < (0x1#4 : Nibble).toNat ∧ (0x1#4 : Nibble).toNat < 8) ∧
      (0 < (0x7#4 : Nibble).toNat ∧ (0x7#4 : Nibble).toNat < 8) := by decide
theorem witness_StocWritesComplement :
    8 < (0x9#4 : Nibble).toNat ∧ 8 < (0xF#4 : Nibble).toNat ∧ (0 < (0x1#4 : Nibble).toNat ∧ (0x1#4 : Nibble).toNat < 8) ∧
      (0 < (0x7#4 : Nibble).toNat ∧ (0x7#4 : Nibble).toNat < 8) := by decide
theorem witness_StoresFaultOnIndexZero :
    Instr.stoc ∈ [Instr.sto, Instr.stoc] ∧ (0x1#4 : Nibble) ≠ 0x0#4 ∧ (0x1#4 : Nibble) ≠ 0x8#4 := by
  exact ⟨by simp, by decide, by decide⟩
theorem witness_StoreFrame :
    Instr.sto ∈ [Instr.sto, Instr.stoc] ∧ (nextOf (exec (.sto 0x9#4) (sample true 0))).isSome = true ∧
      (nextOf (exec (.sto 0x0#4) (sample true 0))).isSome = true := by
  exact ⟨by simp, by decide, by decide⟩
theorem witness_StoredRamBitIsReadBackAndOutputBitIsNot :
    ((0x9#4 : Nibble) ≠ 0x0#4 ∧ (0x9#4 : Nibble) ≠ 0x8#4 ∧ 8 < (0x9#4 : Nibble).toNat) ∧
      ((0x7#4 : Nibble) ≠ 0x0#4 ∧ (0x7#4 : Nibble) ≠ 0x8#4 ∧ (0x7#4 : Nibble).toNat < 8) := by decide
theorem witness_StoreThenCompareIdentities : 8 < (0x9#4 : Nibble).toNat ∧ 8 < (0xF#4 : Nibble).toNat := by decide
theorem witness_IenStoresOperandVerbatim : (nextOf (exec (.ien 0x8#4) State.reset)).isSome = true := by decide
theorem witness_OenStoresOperandVerbatim : (nextOf (exec (.oen 0x8#4) State.reset)).isSome = true := by decide
theorem witness_EnableRegistersGateNothing :
    (nextOf (exec (.ld 0x4#4) State.reset)).isSome = true ∧ (nextOf (exec (.sto 0x2#4) State.reset)).isSome = true := by decide
theorem witness_BranchDisplacements :
    8 ≤ (0x8#4 : Nibble).toNat ∧ (0x7#4 : Nibble).toNat < 8 ∧
      0 ≤ ((sample true 31).pc : Int) + 1 + branchDisplacement 0x7#4 := by decide
theorem witness_JmpMovesRelative :
    8 ≤ (0x8#4 : Nibble).toNat ∧
      ((0x0#4 : Nibble).toNat < 8 ∧ 4 * ((0x0#4 : Nibble).toNat + 1) ≤ (sample true 3).pc + 1) ∧
      ((0x7#4 : Nibble).toNat < 8 ∧ 4 * ((0x7#4 : Nibble).toNat + 1) ≤ (sample true 31).pc + 1) := by decide
theorem witness_JmpBelowWordZeroFaults :
    ((0x0#4 : Nibble).toNat < 8 ∧ (sample true 2).pc + 1 < 4 * ((0x0#4 : Nibble).toNat + 1)) ∧
      ((0x7#4 : Nibble).toNat < 8 ∧ (sample true 30).pc + 1 < 4 * ((0x7#4 : Nibble).toNat + 1)) := by decide
theorem witness_JmpTargetTable :
    3 ≤ (sample true 3).pc ∧ (sample true 2).pc < 3 ∧ 31 ≤ (sample true 31).pc ∧ (sample true 30).pc < 31 := by decide
theorem witness_SkzSkipsOnZero : (sample false 1).rr = false ∧ (sample true 1).rr = true := by decide

/-- The program `skz; jmp 8` with `RR` as given. -/
def skipJump (rr : Bit) : State := { load [0xE1#8, 0xC8#8] with rr := rr }

/-- The program `skz; ret; jmp 8` with `RR` as given. -/
def skipReturnJump (rr : Bit) : State := { load [0xE1#8, 0xD1#8, 0xC8#8] with rr := rr }

theorem witness_ComposedConditionalJumps_jump :
    (skipJump true).fault = none ∧ (skipJump true).prog[(skipJump true).pc]? = some (encode (.skz 0x1#4)) ∧
      (skipJump true).prog[(skipJump true).pc + 1]? = some (encode (.jmp 0x8#4)) ∧
      0 ≤ branchTarget ((skipJump true).pc + 1) 0x8#4 ∧ (skipJump true).rr = true ∧ (skipJump false).rr = false := by
  decide
theorem witness_ComposedConditionalJumps_return :
    (skipReturnJump true).fault = none ∧
      (skipReturnJump true).prog[(skipReturnJump true).pc]? = some (encode (.skz 0x1#4)) ∧
      (skipReturnJump true).prog[(skipReturnJump true).pc + 1]? = some (encode (.rtn 0x1#4)) ∧
      (skipReturnJump true).prog[(skipReturnJump true).pc + 2]? = some (encode (.jmp 0x8#4)) ∧
      0 ≤ branchTarget ((skipReturnJump true).pc + 2) 0x8#4 ∧ (skipReturnJump true).rr = true ∧
      (skipReturnJump false).rr = false := by
  decide
theorem witness_NoDataInstructionsFrame :
    Instr.jmp ∈ [Instr.nop, Instr.nopf, Instr.jmp, Instr.rtn, Instr.skz] ∧
      (nextOf (exec (.jmp 0x8#4) State.reset)).isSome = true ∧ (nextOf (exec (.jmp 0x0#4) State.reset)).isSome = true ∧
      (nextOf (exec (.ien 0x8#4) State.reset)).isSome = true ∧ (nextOf (exec (.oen 0x8#4) State.reset)).isSome = true := by
  exact ⟨by simp, by decide, by decide, by decide, by decide⟩

/-- One instruction of each kind that changes its piece of state: LD, IEN, OEN, STO to RAM, STO to a pin. -/
theorem witness_EachStateWrittenOnlyByItsInstructions :
    stepOn (sample false 0) 0x10 (fun t => t.rr) = some true ∧
      stepOn (sample false 0) 0xA1 (fun t => (t.ien, t.ienWritten)) = some (0x1#4, true) ∧
      stepOn (sample false 0) 0xB1 (fun t => (t.oen, t.oenWritten)) = some (0x1#4, true) ∧
      stepOn (sample true 0) 0x89 (fun t => t.ram) = some [(1, 0x01#8)] ∧
      stepOn (sample true 0) 0x87 (fun t => t.out) = some [(7, 0x01#8)] := by decide
theorem witness_AccumulatorReadOnlyByItsReaders :
    (Instr.ld 0x7#4).opcode ∈ [0x0#4, 0x1#4, 0x2#4, 0xA#4, 0xB#4, 0xC#4, 0xD#4, 0xF#4] ∧
      (nextOf (exec (.ld 0x7#4) State.reset)).isSome = true ∧ (Instr.ld 0x7#4).opcode ∈ [0x1#4, 0x2#4] ∧
      (Instr.ld 0x7#4).operand ≠ 0x8#4 := by decide
theorem witness_OutputPinsAreNeverRead :
    (nextOf (exec (.sto 0x7#4) (sample true 0))).map (fun t => t.out.read 7) ≠ some ((sample true 0).out.read 7) := by decide
theorem witness_FaultsExactlyWhereListed :
    (load [0x18#8]).fault = none ∧ (load [0x18#8]).prog[(load [0x18#8]).pc]? = some 0x18#8 ∧ 0x18#8 ∈ gapWords ∧
      stepOn State.reset 0x18 (fun t => t.fault) = some (some (.addrZero 0x8#4)) ∧
      stepOn State.reset 0xC7 (fun t => t.fault) = some (some (.pcUnderflow (-31))) := by decide
theorem witness_FaultIsPreciseAndSticky :
    (nextOf (step (load [0x80#8]))).map (fun t => t.fault) = some (some (.addrZero 0x0#4)) ∧
      (State.reset.setFault (.addrZero 0x0#4)).fault = some (.addrZero 0x0#4) ∧
      parseProgram "01".toList = .ok [0x01#8] := by decide
theorem witness_FaultIsPreciseAndSticky_actions :
    (∀ p, HostAction.setInput 1 1 ≠ .load p) ∧
      (∀ x p, HostAction.setInput 1 1 = .loadText x → parseProgram x ≠ .ok p) ∧
      (∀ x p, HostAction.loadText "0".toList = .loadText x → parseProgram x ≠ .ok p) := by
  refine ⟨by simp, by simp, ?_⟩
  rintro x p ⟨⟩
  rw [show parseProgram "0".toList = .error .oddProgramText by decide]
  simp
theorem witness_EndedRunRefusesSteps :
    ((load []).fault = none ∧ (load []).prog.length ≤ (load []).pc) ∧
      ((sample true 42).fault = none ∧ (sample true 42).prog.length ≤ (sample true 42).pc) := by decide
theorem witness_ContinueSignalAfterStep :
    stepOn (sample true 8) 0x01 State.continueSignal = some true ∧
      stepOn (sample true 9) 0x01 State.continueSignal = some false ∧
      stepOn (sample true 4) 0x88 State.continueSignal = some false := by decide
theorem witness_LoadGivesResetState : 1 ≤ 1 ∧ 1 ≤ 7 ∧ 7 ≤ 7 ∧ ([] : List Word) = [] := by decide

/-- A loaded program meets the invariant, and its first step answers a next state. -/
theorem witness_StepKeepsMachineInvariant :
    (load [0x89#8]).Inv ∧ (nextOf (step (load [0x89#8]))).isSome = true :=
  ⟨⟨by decide, by decide, by decide, by decide, fun f h => by cases h⟩, by decide⟩
theorem witness_HostActionsKeepMachineInvariant : (load [0x11#8, 0x81#8]).Inv :=
  ⟨by decide, by decide, by decide, by decide, fun f h => by cases h⟩
theorem witness_SetInputAssignsOnePin :
    (0 < 8 ∧ 0 < 2) ∧ (7 < 8 ∧ 1 < 2) ∧ (8 ≤ 8 ∨ 2 ≤ 1) ∧ (8 ≤ 7 ∨ 2 ≤ 2) := by decide
theorem witness_AssignedInputIsLatchedAndLoaded : (0x0#4 : Nibble).toNat < 8 ∧ (0x7#4 : Nibble).toNat < 8 := by decide
theorem witness_ProgramChangesOnlyByLoad :
    ∀ a ∈ [HostAction.step, .setInput 1 1, .readOutputs], ∀ p t, a ≠ .load p ∧ a ≠ .loadText t := by simp
theorem witness_MalformedTextLoadsNothing :
    (∀ p, parseProgram "30A".toList ≠ .ok p) ∧ (∀ p, parseProgram "3G".toList ≠ .ok p) := by
  rw [test_load_odd, test_load_bad_digit]
  simp
theorem witness_BasicLineRoundTrip :
    (basicOpcode "sto".toList = some 0x8#4 ∧ resolveOperand "!rr".toList = .ok 0x0#4) ∧
      (basicOpcode "skz".toList = some 0xE#4 ∧ resolveOperand "f".toList = .ok 0xF#4) ∧
      tokens (stripComment "\tsto  !rr ; pin 0".toList) = ["sto".toList, "!rr".toList] ∧
      (tokens (stripComment " ret; skip".toList) = ["ret".toList] ∧ bareDefault "ret".toList = some 0x1#4) := by decide
theorem witness_FirstFailingLineIsReported_position :
    assembleWords fixture "nop\n\nfoo 1".toList = .error (.atLine 3 .unknownInstruction) ∧
      (sourceLines "nop\n\nfoo 1".toList)[2]? = some "foo 1".toList ∧
      assembleLine fixture "foo 1".toList = .error .unknownInstruction ∧
      (∀ earlier ∈ (sourceLines "nop\n\nfoo 1".toList).take 2, (assembleLine fixture earlier).isOk = true) := by decide
theorem witness_FirstFailingLineIsReported_line :
    tokens (stripComment "foo 1".toList) = ["foo".toList, "1".toList] ∧ basicOpcode "foo".toList = none ∧
      fixture.macros.lookup "foo".toList = none ∧
      tokens (stripComment "xor 2".toList) = ["xor".toList, "2".toList] ∧ basicOpcode "xor".toList = none ∧
      (fixture.macros.lookup "xor".toList).isSome = true ∧
      digitToken "2".toList = some 0x2#4 ∧
      invokeMacro { fixture with depthMax := 0 } "xor".toList [0x2#4] = .error .macroDepthExceeded := by decide

/-- A table whose macro `a` names the macro `b`, with the rank of its names. -/
def rankedTable : MacroTable := [("a".toList, [⟨"b".toList, [-1]⟩]), ("b".toList, [⟨"ld".toList, [-1]⟩])]

/-- The rank: 1 for `a`, 0 for every other name. -/
def rankOf (name : Text) : Nat := if name = "a".toList then 1 else 0

theorem witness_AcyclicMacrosExpand :
    (∀ name steps, rankedTable.lookup name = some steps → ∀ m ∈ steps, basicOpcode m.target = none →
      rankedTable.lookup m.target ≠ none → rankOf m.target < rankOf name) ∧ rankOf "a".toList < 2 := by
  refine ⟨fun name steps h m hm hb _ => ?_, by decide⟩
  by_cases ha : name = "a".toList
  · subst ha
    have : steps = [⟨"b".toList, [-1]⟩] := by
      have h' : rankedTable.lookup "a".toList = some [⟨"b".toList, [-1]⟩] := by decide
      rw [h'] at h
      exact (Option.some.inj h).symm
    subst this
    obtain rfl : m = ⟨"b".toList, [-1]⟩ := by simpa using hm
    decide
  · by_cases hb' : name = "b".toList
    · subst hb'
      have : steps = [⟨"ld".toList, [-1]⟩] := by
        have h' : rankedTable.lookup "b".toList = some [⟨"ld".toList, [-1]⟩] := by decide
        rw [h'] at h
        exact (Option.some.inj h).symm
      subst this
      obtain rfl : m = ⟨"ld".toList, [-1]⟩ := by simpa using hm
      exact absurd hb (by decide)
    · have e1 : (name == ['a']) = false := by simpa using ha
      have e2 : (name == ['b']) = false := by simpa using hb'
      simp [rankedTable, List.lookup, e1, e2] at h

/-- Every step of the ranked table is well-referenced when each of its macros is given one argument. -/
theorem witness_AcyclicMacrosExpand_success :
    (∀ other steps, rankedTable.lookup other = some steps →
      ∀ m ∈ steps, m.wellReferenced rankedTable (fun _ => 1) 1) ∧
      rankedTable.lookup "a".toList ≠ none ∧ 1 ≤ [(0x3#4 : Nibble)].length := by
  refine ⟨fun other steps h m hm => ?_, by decide, by decide⟩
  have hs : ∀ entry ∈ rankedTable, ∀ m ∈ entry.2, m.wellReferenced rankedTable (fun _ => 1) 1 := by
    simp only [rankedTable, MacroStep.wellReferenced, specInRange]
    decide
  refine hs (other, steps) ?_ m hm
  unfold rankedTable at h ⊢
  simp only [List.lookup] at h
  repeat' split at h
  all_goals simp_all

/-- A table with a literal above 15, beside a macro that does not use it. -/
def overfull : MacroTable := [("xor".toList, [⟨"nop".toList, []⟩]), ("m".toList, [⟨"ld".toList, [16]⟩])]

/-- Lines that name the macro `xor`, with no, two, and one argument. -/
theorem witness_MacroLineTakesOneDigit :
    tokens (stripComment "xor".toList) = ["xor".toList] ∧
      tokens (stripComment "xor 1 2".toList) = ["xor".toList, "1".toList, "2".toList] ∧
      tokens (stripComment "xor !rr".toList) = ["xor".toList, "!rr".toList] ∧
      tokens (stripComment "xor g".toList) = ["xor".toList, ['g']] ∧
      tokens (stripComment "xor 2".toList) = ["xor".toList, ['2']] ∧ basicOpcode "xor".toList = none ∧
      (fixture.macros.lookup "xor".toList).isSome = true ∧ (overfull.lookup "xor".toList).isSome = true := by decide
theorem witness_MacroLineTakesOneDigit_digit :
    (∀ c ∈ "0123456789ABCDEFabcdef".toList, "!rr".toList ≠ [c]) ∧ hexDigit '2' = some 0x2#4 := by
  exact ⟨by simp, by decide⟩
theorem witness_MacroLineTakesOneDigit_table :
    (∀ entry ∈ fixture.macros, ∀ m ∈ entry.2, ∀ z ∈ m.specs, z ≤ 15) ∧
      ∃ entry ∈ overfull, ∃ m ∈ entry.2, ∃ z ∈ m.specs, 15 < z := by
  refine ⟨?_, ("m".toList, [⟨"ld".toList, [16]⟩]), ?_⟩
  · simp [fixture]
  · simp [overfull]
theorem witness_SpecifiersResolve :
    1 ≤ 1 ∧ [(0x3#4 : Nibble)][1 - 1]? = some 0x3#4 ∧ [(0x3#4 : Nibble)].length < 2 ∧ 15 ≤ 15 := by decide

end Sys2Proof.Tests
end

/-! PROOF. `IEN` and `OEN` gate nothing (spec 20_memory.md R43): states that differ only in the enable registers stay
so under every instruction. The relation is kept by each field update, then by each shared operation, then by each
instruction. -/

namespace Sys2Proof.Machine

/-! ### States that differ in the enable registers only -/

/-- The second state is the first with any values in the enable registers and their marks. -/
inductive SameButEnables (s : State) : State → Prop where
  | mk (e : Nibble) (ew : Bool) (o : Nibble) (ow : Bool) :
      SameButEnables s { s with ien := e, ienWritten := ew, oen := o, oenWritten := ow }

namespace SameButEnables

variable {s u : State}

/-- Putting the first state's enable registers into the second gives the first. -/
theorem restore (h : SameButEnables s u) :
    { u with ien := s.ien, ienWritten := s.ienWritten, oen := s.oen, oenWritten := s.oenWritten } = s := by
  cases h; rfl

theorem rr_eq (h : SameButEnables s u) : u.rr = s.rr := by cases h; rfl
theorem pc_eq (h : SameButEnables s u) : u.pc = s.pc := by cases h; rfl
theorem ram_eq (h : SameButEnables s u) : u.ram = s.ram := by cases h; rfl
theorem inp_eq (h : SameButEnables s u) : u.inp = s.inp := by cases h; rfl

/-! Every field update is kept; one that writes an enable register writes it in both states. -/

theorem setRR (h : SameButEnables s u) (b : Bit) : SameButEnables (s.setRR b) (u.setRR b) := by
  cases h; exact .mk ..
theorem setPc (h : SameButEnables s u) (n : Nat) : SameButEnables (s.setPc n) (u.setPc n) := by
  cases h; exact .mk ..
theorem setRam (h : SameButEnables s u) (a : Nat) (b : Bit) : SameButEnables (s.setRam a b) (u.setRam a b) := by
  cases h; exact .mk ..
theorem setOut (h : SameButEnables s u) (a : Nat) (b : Bit) : SameButEnables (s.setOut a b) (u.setOut a b) := by
  cases h; exact .mk ..
theorem setFault (h : SameButEnables s u) (f : Fault) : SameButEnables (s.setFault f) (u.setFault f) := by
  cases h; exact .mk ..
theorem setIen (h : SameButEnables s u) (v : Nibble) : SameButEnables (s.setIen v) (u.setIen v) := by
  cases h; exact .mk ..
theorem setOen (h : SameButEnables s u) (v : Nibble) : SameButEnables (s.setOen v) (u.setOen v) := by
  cases h; exact .mk ..

end SameButEnables

/-- Both outcomes are next states, and these differ in the enable registers only. -/
def NextSameButEnables (a b : StepOutcome) : Prop :=
  ∃ t t', a = .next t ∧ b = .next t' ∧ SameButEnables t t'

/-! ### The shared operations -/

section
variable {s u : State}

/-- A read does not look at the enable registers: it answers the same bit or the same fault. -/
theorem memRead_sameButEnables (h : SameButEnables s u) (d : Nibble) : memRead d u = memRead d s := by
  simp only [memRead, h.ram_eq, h.inp_eq]

/-- A write does not look at the enable registers: it raises the same fault, or writes the same cell. -/
theorem memWrite_sameButEnables (h : SameButEnables s u) (d : Nibble) (v : Bit) :
    (∃ f, memWrite d v s = .error f ∧ memWrite d v u = .error f) ∨
    (∃ t t', memWrite d v s = .ok t ∧ memWrite d v u = .ok t' ∧ SameButEnables t t') := by
  by_cases hi : indexOf d = 0
  · exact .inl ⟨.addrZero d, by simp [memWrite, hi], by simp [memWrite, hi]⟩
  · cases hd : domainOf d with
    | ram => exact .inr ⟨_, _, by simp [memWrite, hi, hd], by simp [memWrite, hi, hd], h.setRam (indexOf d) v⟩
    | pins => exact .inr ⟨_, _, by simp [memWrite, hi, hd], by simp [memWrite, hi, hd], h.setOut (indexOf d) v⟩

theorem raise_sameButEnables (h : SameButEnables s u) (f : Fault) : NextSameButEnables (raise f s) (raise f u) :=
  ⟨_, _, rfl, rfl, h.setFault f⟩

theorem advance_sameButEnables (h : SameButEnables s u) (n : Nat) :
    NextSameButEnables (advance n s) (advance n u) := by
  rw [advance, advance, h.pc_eq]
  exact ⟨_, _, rfl, rfl, h.setPc _⟩

theorem branchTo_sameButEnables (h : SameButEnables s u) (target : Int) :
    NextSameButEnables (branchTo target s) (branchTo target u) := by
  unfold branchTo
  split
  · exact raise_sameButEnables h _
  · exact ⟨_, _, rfl, rfl, h.setPc _⟩

theorem loadLogic_sameButEnables (h : SameButEnables s u) (alu : Bit → Bit → Bit) (d : Nibble) :
    NextSameButEnables (loadLogic alu d s) (loadLogic alu d u) := by
  rw [loadLogic, loadLogic, memRead_sameButEnables h, h.rr_eq]
  cases memRead d s with
  | error f => exact raise_sameButEnables h f
  | ok sel => exact advance_sameButEnables (h.setRR _) 1

theorem storeBit_sameButEnables (h : SameButEnables s u) (d : Nibble) (v : Bit) :
    NextSameButEnables (storeBit d v s) (storeBit d v u) := by
  unfold storeBit
  rcases memWrite_sameButEnables h d v with ⟨f, hs, hu⟩ | ⟨t, t', hs, hu, ht⟩
  · rw [hs, hu]
    exact raise_sameButEnables h f
  · rw [hs, hu]
    exact advance_sameButEnables ht 1

end

/-! ### The instructions -/

theorem exec_skz (d : Nibble) (s : State) : exec (.skz d) s = advance (if skipsOnZero s.rr then 2 else 1) s := rfl

/-- Every instruction takes states that differ in the enable registers only to such states. -/
theorem exec_sameButEnables {s u : State} (h : SameButEnables s u) (i : Instr) :
    NextSameButEnables (exec i s) (exec i u) := by
  cases i with
  | nop d | nopf d => exact advance_sameButEnables h 1
  | rtn d => exact advance_sameButEnables h 2
  | skz d =>
    rw [exec_skz, exec_skz, h.rr_eq]
    exact advance_sameButEnables h _
  | jmp d =>
    rw [exec_jmp, exec_jmp, h.pc_eq]
    exact branchTo_sameButEnables h _
  | ld d => rw [exec_ld, exec_ld]; exact loadLogic_sameButEnables h _ d
  | ldc d => rw [exec_ldc, exec_ldc]; exact loadLogic_sameButEnables h _ d
  | and d => rw [exec_and, exec_and]; exact loadLogic_sameButEnables h _ d
  | andc d => rw [exec_andc, exec_andc]; exact loadLogic_sameButEnables h _ d
  | or d => rw [exec_or, exec_or]; exact loadLogic_sameButEnables h _ d
  | orc d => rw [exec_orc, exec_orc]; exact loadLogic_sameButEnables h _ d
  | xnor d => rw [exec_xnor, exec_xnor]; exact loadLogic_sameButEnables h _ d
  | sto d =>
    rw [exec_sto, exec_sto, h.rr_eq]
    exact storeBit_sameButEnables h d _
  | stoc d =>
    rw [exec_stoc, exec_stoc, h.rr_eq]
    exact storeBit_sameButEnables h d _
  | ien d => exact advance_sameButEnables (h.setIen _) 1
  | oen d => exact advance_sameButEnables (h.setOen _) 1

/-- Settles O27, from the relation `SameButEnables` that every instruction keeps. -/
theorem enableRegistersGateNothing : Obligations.EnableRegistersGateNothing := by
  intro i s t e o ew ow ht
  obtain ⟨t₁, t', hs, hu, hsame⟩ := exec_sameButEnables (.mk (s := s) e ew o ow) i
  obtain rfl : t₁ = t := by simpa [hs] using ht
  exact ⟨t', hu, hsame.restore⟩

end Sys2Proof.Machine

/-! PROOF. The encoding and the assembler (spec 30_encoding.md R49, R54, R64, R73, R75): the two directions of a branch
offset; the lines of a source text in order, up to the first that fails; the opcodes an assembly can emit; and a line
of a basic mnemonic, from its text to its word and back. -/

namespace Sys2Proof.Machine

/-! ### The branch offset -/

/-- The displacement, one case per direction, beside the domain bit and the index of the same nibble (spec
30_encoding.md R49). -/
theorem branchDisplacement_cases (d : Nibble) :
    (8 ≤ d.toNat ∧ d.getLsbD 3 = true ∧ d.toNat = indexOf d + 8 ∧
      branchDisplacement d = 4 * ((indexOf d : Int) + 1)) ∨
    (d.toNat < 8 ∧ d.getLsbD 3 = false ∧ d.toNat = indexOf d ∧
      branchDisplacement d = -4 * ((indexOf d : Int) + 1)) := by
  revert d; decide

/-- A JMP with a target at or above word 0 moves `pc` there and changes nothing else (spec 44_control.md R97). -/
theorem exec_jmp_of_target_nonneg {d : Nibble} {s : State} (h : 0 ≤ branchTarget s.pc d) :
    exec (.jmp d) s = .next (s.setPc (branchTarget s.pc d).toNat) := by
  rw [exec_jmp]
  rcases branchTo_cases (branchTarget s.pc d) s with ⟨hneg, -⟩ | ⟨-, hnext⟩
  · omega
  · exact hnext

/-- Settles O28, from the two directions of the displacement. -/
theorem branchDisplacements : Obligations.BranchDisplacements := by
  intro d
  have hm : indexOf d < 8 := indexOf_lt d
  have hindex : (d.extractLsb' 0 3).toNat = indexOf d := rfl
  have hjmp : ∀ s : State, 0 ≤ (s.pc : Int) + 1 + branchDisplacement d →
      exec (.jmp d) s = .next { s with pc := ((s.pc : Int) + 1 + branchDisplacement d).toNat } :=
    fun _ h => exec_jmp_of_target_nonneg h
  rw [hindex]
  rcases branchDisplacement_cases d with ⟨ho, hbit, hd, hdisp⟩ | ⟨ho, hbit, hd, hdisp⟩
  · refine ⟨?_, ?_, ?_, ⟨fun _ => hbit, ?_⟩, ?_, ?_, ?_, ?_, hjmp⟩ <;> omega
  · have hforward : d.getLsbD 3 = true → 0 < branchDisplacement d :=
      fun h => absurd (hbit.symm.trans h) Bool.false_ne_true
    refine ⟨?_, ?_, ?_, ⟨?_, hforward⟩, ?_, ?_, ?_, ?_, hjmp⟩ <;> omega

/-! ### The lines of a text, up to the first that fails -/

section
variable {ε α β : Type} {f : α → β} {x : Except ε α}

/-- A mapped result is a value exactly when the result is one, and is its image. -/
theorem exceptMap_eq_ok_iff {b : β} : x.map f = .ok b ↔ ∃ a, x = .ok a ∧ b = f a := by
  cases x <;> simp [Except.map, eq_comm]

/-- A mapped result fails exactly when the result does, with the same error. -/
theorem exceptMap_eq_error_iff {e : ε} : x.map f = .error e ↔ x = .error e := by
  cases x <;> simp [Except.map]

end

/-- The first failing line stops the assembly with its own error, at its position (spec 30_encoding.md R64, R73). -/
theorem assembleLines_firstFailure {cfg : AsmConfig} {lines : List Text} {k n : Nat} {line : Text} {e : AsmError}
    (hk : lines[k]? = some line) (he : assembleLine cfg line = .error e)
    (hpass : ∀ earlier ∈ lines.take k, ∃ pairs, assembleLine cfg earlier = .ok pairs) :
    assembleLines cfg n lines = .error (.atLine (n + k) e) := by
  induction lines generalizing k n with
  | nil => simp at hk
  | cons first rest ih =>
    cases k with
    | zero =>
      obtain rfl : first = line := by simpa using hk
      exact assembleLines_fail cfg n rest he
    | succ k =>
      simp only [List.take_succ_cons, List.forall_mem_cons] at hpass
      obtain ⟨⟨pairs, hfirst⟩, hrest⟩ := hpass
      rw [assembleLines_pass cfg n rest hfirst, ih (n := n + 1) (by simpa using hk) hrest,
        exceptMap_eq_error_iff.mpr rfl, Nat.add_right_comm, Nat.add_assoc]

/-- Every failure of an assembly is that of its first failing line. -/
theorem assembleLines_error {cfg : AsmConfig} {lines : List Text} {n position : Nat} {e : AsmError}
    (h : assembleLines cfg n lines = .error (.atLine position e)) :
    ∃ k line, position = n + k ∧ lines[k]? = some line ∧ assembleLine cfg line = .error e ∧
      ∀ j < k, ∃ earlier pairs, lines[j]? = some earlier ∧ assembleLine cfg earlier = .ok pairs := by
  induction lines generalizing n with
  | nil => cases h
  | cons first rest ih =>
    cases hfirst : assembleLine cfg first with
    | error e' =>
      rw [assembleLines_fail cfg n rest hfirst] at h
      cases h
      exact ⟨0, first, rfl, rfl, hfirst, by simp⟩
    | ok pairs =>
      have hrest : assembleLines cfg (n + 1) rest = .error (.atLine position e) := by
        rwa [assembleLines_pass cfg n rest hfirst, exceptMap_eq_error_iff] at h
      obtain ⟨k, line, hpos, hk, he, hpass⟩ := ih hrest
      refine ⟨k + 1, line, by omega, by simpa using hk, he, fun j hj => ?_⟩
      cases j with
      | zero => exact ⟨first, pairs, rfl, hfirst⟩
      | succ j => simpa using hpass j (by omega)

/-- An assembly succeeds exactly when every line does, with the lines' pairs in order (spec 30_encoding.md R64). -/
theorem assembleLines_ok_iff {cfg : AsmConfig} {lines : List Text} {n : Nat} {pairs : List Pair} :
    assembleLines cfg n lines = .ok pairs ↔
      ∃ out : List (List Pair),
        List.Forall₂ (fun line ps => assembleLine cfg line = .ok ps) lines out ∧ pairs = out.flatten := by
  induction lines generalizing n pairs with
  | nil => simp [assembleLines, eq_comm]
  | cons first rest ih =>
    simp only [List.forall₂_cons_left_iff]
    cases hfirst : assembleLine cfg first with
    | error e => simp [assembleLines_fail cfg n rest hfirst]
    | ok ps =>
      rw [assembleLines_pass cfg n rest hfirst, exceptMap_eq_ok_iff]
      constructor
      · rintro ⟨more, hmore, rfl⟩
        obtain ⟨out, hout, rfl⟩ := ih.mp hmore
        exact ⟨ps :: out, ⟨ps, out, rfl, hout, rfl⟩, rfl⟩
      · rintro ⟨_, ⟨_, out, ⟨⟩, hout, rfl⟩, rfl⟩
        exact ⟨out.flatten, ih.mpr ⟨out, hout, rfl⟩, rfl⟩

/-- The words of a text are those of its lines' pairs. -/
theorem assembleWords_ok_iff {cfg : AsmConfig} {text : Text} {words : List Word} :
    assembleWords cfg text = .ok words ↔
      ∃ pairs, assembleLines cfg 1 (sourceLines text) = .ok pairs ∧ words = pairs.map pairWord :=
  exceptMap_eq_ok_iff

/-- A text fails as its lines do. -/
theorem assembleWords_error_iff {cfg : AsmConfig} {text : Text} {f : AsmFailure} :
    assembleWords cfg text = .error f ↔ assembleLines cfg 1 (sourceLines text) = .error f :=
  exceptMap_eq_error_iff

/-- Settles O55, by induction on the lines of the text. -/
theorem firstFailingLineIsReported : Obligations.FirstFailingLineIsReported := by
  refine ⟨fun cfg text k line e hk he hpass => ?_, fun cfg text words => ?_, fun cfg text n e h => ?_,
    fun cfg line name args ht hb => ⟨assembleLine_unknown cfg ht hb, ?_⟩⟩
  · rw [assembleWords_error_iff, assembleLines_firstFailure hk he hpass, Nat.add_comm]
  · rw [assembleWords_ok_iff]
    constructor
    · rintro ⟨pairs, hpairs, rfl⟩
      obtain ⟨out, hout, rfl⟩ := assembleLines_ok_iff.mp hpairs
      exact ⟨out, hout, rfl⟩
    · rintro ⟨out, hout, rfl⟩
      exact ⟨out.flatten, assembleLines_ok_iff.mpr ⟨out, hout, rfl⟩, rfl⟩
  · obtain ⟨k, line, rfl, hk, he, hpass⟩ := assembleLines_error (assembleWords_error_iff.mp h)
    rw [Nat.add_sub_cancel_left]
    exact ⟨by omega, ⟨line, hk, he⟩, hpass⟩
  · rintro steps token v e hm rfl hdigit hinvoke
    simp [assembleLine_macro cfg ht hb hm, assembleInvocation, hdigit, hinvoke]

/-! ### The opcodes an assembly can emit -/

/-- The opcode of a mnemonic stands in the table beside it. -/
theorem mem_basicMnemonics {name : Text} {op : Nibble} (h : basicOpcode name = some op) :
    (name, op) ∈ basicMnemonics := by
  obtain ⟨before, after, hsplit, -⟩ := List.lookup_eq_some_iff.mp h
  simp [hsplit]

/-- Every pair has the opcode of a basic mnemonic. -/
def FromMnemonics (pairs : List Pair) : Prop := ∀ p ∈ pairs, ∃ name, basicOpcode name = some p.1

theorem FromMnemonics.nil : FromMnemonics [] := by simp [FromMnemonics]

theorem FromMnemonics.single {name : Text} {op : Nibble} (h : basicOpcode name = some op) (v : Nibble) :
    FromMnemonics [(op, v)] := by
  simpa [FromMnemonics] using ⟨name, h⟩

theorem FromMnemonics.append {xs ys : List Pair} (hx : FromMnemonics xs) (hy : FromMnemonics ys) :
    FromMnemonics (xs ++ ys) :=
  fun p hp => (List.mem_append.mp hp).elim (hx p) (hy p)

/-- A step with a basic target emits the one pair of its opcode. -/
theorem expandBasicStep_ok {op : Nibble} {m : MacroStep} {actuals : List Nibble} {pairs : List Pair}
    (h : expandBasicStep op m actuals = .ok pairs) : ∃ v, pairs = [(op, v)] := by
  unfold expandBasicStep at h
  split at h
  · split at h <;> cases h
    exact ⟨_, rfl⟩
  · split at h <;> cases h
    exact ⟨_, rfl⟩
  · cases h

/-- A line of a basic mnemonic emits the one pair of its opcode. -/
theorem assembleBasic_ok {op : Nibble} {name : Text} {args : List Text} {pairs : List Pair}
    (h : assembleBasic op name args = .ok pairs) : ∃ v, pairs = [(op, v)] := by
  unfold assembleBasic at h
  split at h
  · split at h <;> cases h
    exact ⟨_, rfl⟩
  · split at h <;> cases h
    exact ⟨_, rfl⟩
  · cases h

section
variable {table : MacroTable} {child : Text → List Nibble → Except AsmError (List Pair)}

/-- A step that succeeds emits one pair of a basic mnemonic, or is the expansion of a child. -/
theorem expandStep_ok {m : MacroStep} {actuals : List Nibble} {pairs : List Pair}
    (h : expandStep table child m actuals = .ok pairs) :
    (∃ op v, basicOpcode m.target = some op ∧ pairs = [(op, v)]) ∨
    (∃ childActuals, child m.target childActuals = .ok pairs) := by
  unfold expandStep at h
  split at h
  next op hop =>
    obtain ⟨v, rfl⟩ := expandBasicStep_ok h
    exact .inl ⟨op, v, hop, rfl⟩
  next =>
    split at h
    · cases h
    · split at h
      · cases h
      · exact .inr ⟨_, h⟩

/-- The steps of an expansion emit what the first emits and then what the rest emit. -/
theorem expandSteps_cons_ok {m : MacroStep} {rest : List MacroStep} {actuals : List Nibble} {pairs : List Pair}
    (h : expandSteps table child (m :: rest) actuals = .ok pairs) :
    ∃ first more, expandStep table child m actuals = .ok first ∧
      expandSteps table child rest actuals = .ok more ∧ pairs = first ++ more := by
  unfold expandSteps at h
  split at h
  · cases h
  next first hfirst =>
    split at h <;> cases h
    next more hmore => exact ⟨first, more, hfirst, hmore, rfl⟩

theorem expandSteps_fromMnemonics
    (hchild : ∀ name actuals pairs, child name actuals = .ok pairs → FromMnemonics pairs)
    {steps : List MacroStep} {actuals : List Nibble} {pairs : List Pair}
    (h : expandSteps table child steps actuals = .ok pairs) : FromMnemonics pairs := by
  induction steps generalizing pairs with
  | nil => cases h; exact .nil
  | cons m rest ih =>
    obtain ⟨first, more, hfirst, hmore, rfl⟩ := expandSteps_cons_ok h
    refine .append ?_ (ih hmore)
    rcases expandStep_ok hfirst with ⟨op, v, hop, rfl⟩ | ⟨childActuals, hc⟩
    · exact .single hop v
    · exact hchild _ _ _ hc

end

/-- An expansion gives pairs of basic mnemonics only, at every depth limit (spec 30_encoding.md R66). -/
theorem expandMacro_fromMnemonics {table : MacroTable} {depth : Nat} {name : Text} {actuals : List Nibble}
    {pairs : List Pair} (h : expandMacro table depth name actuals = .ok pairs) : FromMnemonics pairs := by
  induction depth generalizing name actuals pairs with
  | zero => cases h
  | succ depth ih =>
    unfold expandMacro at h
    split at h
    · cases h
    · exact expandSteps_fromMnemonics (fun _ _ _ => ih) h

/-- A line emits pairs of basic mnemonics only. -/
theorem assembleLine_fromMnemonics {cfg : AsmConfig} {line : Text} {pairs : List Pair}
    (h : assembleLine cfg line = .ok pairs) : FromMnemonics pairs := by
  cases ht : tokens (stripComment line) with
  | nil =>
    rw [assembleLine_blank cfg ht] at h
    cases h
    exact .nil
  | cons name args =>
    cases hb : basicOpcode name with
    | some op =>
      rw [assembleLine_basic cfg ht hb] at h
      obtain ⟨v, rfl⟩ := assembleBasic_ok h
      exact .single hb v
    | none =>
      cases hm : cfg.macros.lookup name with
      | none => simp [assembleLine_unknown cfg ht hb hm] at h
      | some steps =>
        rw [assembleLine_macro cfg ht hb hm] at h
        obtain ⟨token, v, -, -, hinvoke⟩ := assembleInvocation_ok h
        exact expandMacro_fromMnemonics (invokeMacro_ok hinvoke).2

/-- The lines of a text emit pairs of basic mnemonics only. -/
theorem assembleLines_fromMnemonics {cfg : AsmConfig} {n : Nat} {lines : List Text} {pairs : List Pair}
    (h : assembleLines cfg n lines = .ok pairs) : FromMnemonics pairs := by
  obtain ⟨out, hout, rfl⟩ := assembleLines_ok_iff.mp h
  clear h
  induction hout with
  | nil => exact .nil
  | cons hline _ ih => exact .append (assembleLine_fromMnemonics hline) ih

/-- No basic mnemonic has opcode 15 (spec 30_encoding.md R54). -/
theorem basicOpcode_ne_fifteen (name : Text) : basicOpcode name ≠ some 0xF#4 := by
  have htable : ∀ entry ∈ basicMnemonics, entry.2 ≠ 0xF#4 := by decide
  exact fun h => htable _ (mem_basicMnemonics h) rfl

/-- Settles O9: opcodes 15 and 0 share an effect, and every emitted pair has the opcode of a mnemonic. -/
theorem opcodeFifteenIsNopAndNeverAssembled : Obligations.OpcodeFifteenIsNopAndNeverAssembled := by
  refine ⟨fun d s => ?_, basicOpcode_ne_fifteen, fun cfg text words h w hw => ?_⟩
  · have hF : decode (0xF#4 ++ d) = .nopf d := decode_packWord 0xF#4 d
    have h0 : decode (0x0#4 ++ d) = .nop d := decode_packWord 0x0#4 d
    rw [hF, h0]
    rfl
  · obtain ⟨pairs, hpairs, rfl⟩ := assembleWords_ok_iff.mp h
    obtain ⟨p, hp, rfl⟩ := List.mem_map.mp hw
    obtain ⟨name, hname⟩ := assembleLines_fromMnemonics hpairs p hp
    rw [pairWord, opcodeField_packWord]
    intro hfifteen
    exact basicOpcode_ne_fifteen name (hfifteen ▸ hname)

/-! ### The text of a line of a basic mnemonic -/

/-- A text that a line can hold as one token: not empty, without white space and without the comment sign. -/
def PlainToken (word : Text) : Prop := word ≠ [] ∧ ∀ c ∈ word, c.isWhitespace = false ∧ c ≠ ';'

/-- A basic mnemonic is one token. -/
theorem plainToken_of_basicOpcode {name : Text} {op : Nibble} (h : basicOpcode name = some op) :
    PlainToken name := by
  have htable : ∀ entry ∈ basicMnemonics,
      entry.1 ≠ [] ∧ ∀ c ∈ entry.1, c.isWhitespace = false ∧ c ≠ ';' := by
    simp [basicMnemonics, Char.isWhitespace]
  exact htable _ (mem_basicMnemonics h)

/-- A hexadecimal digit is no white space and not the comment sign. -/
theorem plainToken_of_hexDigit {c : Char} {v : Nibble} (h : hexDigit c = some v) : PlainToken [c] := by
  have hnone : ∀ x ∈ [' ', '\t', '\r', '\n', ';'], hexDigit x = none := by simp [hexDigit]
  have hc : c ∉ [' ', '\t', '\r', '\n', ';'] := fun hmem => by simp [hnone c hmem] at h
  simpa [PlainToken, Char.isWhitespace, and_assoc] using hc

/-- An operand token that resolves is `!rr` or one hexadecimal digit (spec 30_encoding.md R62). -/
theorem resolveOperand_ok {token : Text} {v : Nibble} (h : resolveOperand token = .ok v) :
    token = ['!', 'r', 'r'] ∨ ∃ c, token = [c] ∧ hexDigit c = some v := by
  unfold resolveOperand at h
  split_ifs at h with hrr
  · exact .inl hrr
  · match token with
    | [] => simp [digitToken] at h
    | [c] =>
      cases hc : hexDigit c with
      | none => simp [digitToken, hc] at h
      | some u => exact .inr ⟨c, rfl, by simpa [digitToken, hc] using h⟩
    | _ :: _ :: _ => simp [digitToken] at h

/-- An operand token that resolves is one token. -/
theorem plainToken_of_resolveOperand {token : Text} {v : Nibble} (h : resolveOperand token = .ok v) :
    PlainToken token := by
  rcases resolveOperand_ok h with rfl | ⟨c, rfl, hc⟩
  · simp [PlainToken, Char.isWhitespace]
  · exact plainToken_of_hexDigit hc

/-- A text without the comment sign is all read. -/
theorem stripComment_eq_self {t : Text} (h : ∀ c ∈ t, c ≠ ';') : stripComment t = t := by
  induction t with
  | nil => rfl
  | cons c rest ih =>
    obtain ⟨hc, hrest⟩ := List.forall_mem_cons.mp h
    simp [stripComment, hc, ih hrest]

/-- Characters that are no white space go on to the run being read. -/
theorem tokensFrom_append_run {word : Text} (h : ∀ c ∈ word, c.isWhitespace = false) (run rest : Text) :
    tokensFrom run (word ++ rest) = tokensFrom (run ++ word) rest := by
  induction word generalizing run with
  | nil => simp
  | cons c word ih =>
    obtain ⟨hc, hword⟩ := List.forall_mem_cons.mp h
    simp [tokensFrom, hc, ih hword]

/-- Two tokens with a space between them are read as these two. -/
theorem tokens_two {a b : Text} (ha : PlainToken a) (hb : PlainToken b) :
    tokens (stripComment (a ++ [' '] ++ b)) = [a, b] := by
  obtain ⟨ha₀, hac⟩ := ha
  obtain ⟨hb₀, hbc⟩ := hb
  have hcomment : ∀ c ∈ a ++ [' '] ++ b, c ≠ ';' := by
    simp only [List.mem_append, List.mem_singleton]
    rintro c ((h | rfl) | h)
    · exact (hac c h).2
    · decide
    · exact (hbc c h).2
  have hspace : (' ' : Char).isWhitespace = true := rfl
  calc tokens (stripComment (a ++ [' '] ++ b))
      = tokensFrom [] (a ++ ([' '] ++ b)) := by
        rw [stripComment_eq_self hcomment, List.append_assoc, tokens]
    _ = tokensFrom a (' ' :: b) := tokensFrom_append_run (fun c h => (hac c h).1) [] _
    _ = a :: tokensFrom [] (b ++ []) := by simp [tokensFrom, hspace, ha₀]
    _ = a :: tokensFrom b [] := by rw [tokensFrom_append_run (fun c h => (hbc c h).1), List.nil_append]
    _ = [a, b] := by simp [tokensFrom, hb₀]

/-! ### The pair of a line and its word -/

/-- With one token that resolves, a basic mnemonic gives the pair of its opcode and the value. -/
theorem assembleBasic_operand {token : Text} {v : Nibble} (op : Nibble) (name : Text)
    (h : resolveOperand token = .ok v) : assembleBasic op name [token] = .ok [(op, v)] := by
  simp [assembleBasic, h]

/-- Alone, a basic mnemonic gives the pair of its opcode and its default operand (spec 30_encoding.md R60). -/
theorem assembleBasic_default {name : Text} {v : Nibble} (op : Nibble) (h : bareDefault name = some v) :
    assembleBasic op name [] = .ok [(op, v)] := by
  simp [assembleBasic, h]

/-- The instruction of an opcode and an operand has these two. -/
theorem instrOf_fields (op d : Nibble) : (instrOf op d).opcode = op ∧ (instrOf op d).operand = d := by
  revert op d; decide

/-- Settles O54: the line's tokens give its pair, and the fields of the pair's word give it back. -/
theorem basicLineRoundTrip : Obligations.BasicLineRoundTrip := by
  refine ⟨fun name token op v hb hr =>
    tokens_two (plainToken_of_basicOpcode hb) (plainToken_of_resolveOperand hr), ?_⟩
  intro cfg line name args op v ht hb hargs
  have hline : assembleLine cfg line = .ok [(op, v)] := by
    rw [assembleLine_basic cfg ht hb]
    rcases hargs with ⟨token, rfl, hr⟩ | ⟨rfl, hd⟩
    · exact assembleBasic_operand op name hr
    · exact assembleBasic_default op hd
  have hdecode : decode (pairWord (op, v)) = instrOf op v := decode_packWord op v
  obtain ⟨hop, hoperand⟩ := instrOf_fields op v
  exact ⟨hline, packWord_toNat op v, opcodeField_packWord op v, operandField_packWord op v,
    by rw [hdecode, hop], by rw [hdecode, hoperand]⟩

end Sys2Proof.Machine

/-! PROOF. The no-operation instructions (spec 40_nop.md R80, R81): NOP and NOPF are the plain advance by one word, and
the line `nop` or `nop d` gives the one pair of opcode 0. What a line of one basic mnemonic gives is said for every
mnemonic. -/

namespace Sys2Proof.Machine

/-! ### The plain advance -/

theorem exec_nop (d : Nibble) (s : State) : exec (.nop d) s = advance 1 s := rfl
theorem exec_nopf (d : Nibble) (s : State) : exec (.nopf d) s = advance 1 s := rfl

/-- Without a fault, the run is finished at the end of the program (spec 70_reset_and_hazards.md R123). -/
theorem finished_setPc_of_eq_length {s : State} {n : Nat} (hf : s.fault = none) (hn : n = s.prog.length) :
    (s.setPc n).finished :=
  ⟨hf, hn.ge⟩

/-! ### A line of one basic mnemonic, alone or with a digit -/

/-- One token is read as itself. -/
theorem tokens_one {a : Text} (ha : PlainToken a) : tokens (stripComment a) = [a] := by
  obtain ⟨ha₀, hac⟩ := ha
  calc tokens (stripComment a)
      = tokensFrom [] (a ++ []) := by
        rw [stripComment_eq_self fun c h => (hac c h).2, List.append_nil, tokens]
    _ = tokensFrom a [] := tokensFrom_append_run (fun c h => (hac c h).1) [] []
    _ = [a] := by simp [tokensFrom, ha₀]

/-- A hexadecimal digit is the operand of its value (spec 30_encoding.md R62). -/
theorem resolveOperand_digit {c : Char} {v : Nibble} (h : hexDigit c = some v) : resolveOperand [c] = .ok v := by
  simp [resolveOperand, digitToken, h]

section
variable (cfg : AsmConfig) {name : Text} {op v : Nibble}

/-- A mnemonic alone on its line takes its default operand (spec 30_encoding.md R60). -/
theorem assembleLine_bareMnemonic (hb : basicOpcode name = some op) (hd : bareDefault name = some v) :
    assembleLine cfg name = .ok [(op, v)] := by
  rw [assembleLine_basic cfg (tokens_one (plainToken_of_basicOpcode hb)) hb, assembleBasic_default op hd]

/-- A mnemonic, a space and a digit give the pair of the opcode and the digit's value (spec 30_encoding.md R62, R63). -/
theorem assembleLine_mnemonicDigit {c : Char} (hb : basicOpcode name = some op) (hc : hexDigit c = some v) :
    assembleLine cfg (name ++ [' '] ++ [c]) = .ok [(op, v)] := by
  have htokens := tokens_two (plainToken_of_basicOpcode hb) (plainToken_of_hexDigit hc)
  rw [assembleLine_basic cfg htokens hb, assembleBasic_operand op name (resolveOperand_digit hc)]

end

/-! ### The two instructions -/

/-- Settles O7: NOP is the plain advance, and `nop` is a basic mnemonic with a default operand. -/
theorem nopOnlyAdvances : Obligations.NopOnlyAdvances := by
  intro d s
  have hnop : basicOpcode "nop".toList = some 0x0#4 := by decide
  have hdefault : bareDefault "nop".toList = some 0x1#4 := by decide
  exact ⟨rfl, exec_nop d s, finished_setPc_of_eq_length,
    fun cfg => assembleLine_bareMnemonic cfg hnop hdefault,
    fun cfg _ hc => assembleLine_mnemonicDigit cfg hnop hc⟩

/-- Settles O8: NOPF is the same plain advance as NOP, and the table of mnemonics has no opcode 15. -/
theorem nopfOnlyAdvances : Obligations.NopfOnlyAdvances := by
  intro d e s
  have hsame : exec (.nopf d) s = exec (.nop e) s := by rw [exec_nopf, exec_nop]
  exact ⟨rfl, exec_nopf d s, hsame, finished_setPc_of_eq_length, basicOpcode_ne_fifteen⟩

end Sys2Proof.Machine

/-! PROOF. The load and logic instructions outside the address-0 gap (spec 41_load_logic.md R82 to R89): the common part
reads the selected bit of the read view at every address but 0x8, and each instruction gives `RR` its own function of
the old `RR` and that bit. -/

namespace Sys2Proof.Machine

/-! ### The common part through the read view -/

/-- From 0x0 to 0x7 the read view shows the input pins (spec 20_memory.md R28). -/
theorem selectedBit_of_lt {d : Nibble} (h : d.toNat < 8) (s : State) : selectedBit d s = s.inp.readBit d.toNat :=
  if_pos h

/-- From 0x9 to 0xF the read view shows the RAM cells (spec 20_memory.md R28). -/
theorem selectedBit_of_gt {d : Nibble} (h : 8 < d.toNat) (s : State) :
    selectedBit d s = s.ram.readBit (d.toNat - 8) :=
  if_neg h.not_gt

/-- Outside the gap the common part raises no fault: `RR` takes the function's value at the selected bit, `pc` advances
by one, and nothing else changes (spec 41_load_logic.md R82). -/
theorem loadLogic_of_ne_gap (alu : Bit → Bit → Bit) {d : Nibble} (hd : d ≠ 0x8#4) (s : State) :
    loadLogic alu d s = .next { s with rr := alu s.rr (selectedBit d s), pc := s.pc + 1 } := by
  rcases loadLogic_cases alu d s with ⟨hgap, -⟩ | ⟨hram, h⟩ | ⟨hpin, h⟩
  · exact absurd hgap hd
  · rw [h, selectedBit_of_gt hram]; rfl
  · rw [h, selectedBit_of_lt hpin]; rfl

/-- XNOR's bit function tests equality (spec 41_load_logic.md R89). -/
theorem bitXnor_eq_decide (a b : Bit) : bitXnor a b = decide (a = b) := Bool.beq_eq_decide_eq a b

/-! ### The seven instructions -/

/-- Settles O10: LD is the common part with the selected bit itself. -/
theorem ldLoadsSelectedBit : Obligations.LdLoadsSelectedBit := by
  intro d s
  refine ⟨rfl, by decide, fun hd => ?_⟩
  rw [exec_ld, loadLogic_of_ne_gap _ hd]

/-- Settles O11: LDC is the common part with the complement. -/
theorem ldcLoadsComplement : Obligations.LdcLoadsComplement := by
  intro d s
  refine ⟨rfl, by decide, fun hd => ?_⟩
  rw [exec_ldc, loadLogic_of_ne_gap _ hd, bitNot]

/-- Settles O12: AND is the common part with the conjunction. -/
theorem andConjoinsSelectedBit : Obligations.AndConjoinsSelectedBit := by
  intro d s
  refine ⟨rfl, by decide, fun hd => ?_⟩
  rw [exec_and, loadLogic_of_ne_gap _ hd, bitAnd]

/-- Settles O13: ANDC is the common part with the conjunction with the complement. -/
theorem andcConjoinsComplement : Obligations.AndcConjoinsComplement := by
  intro d s
  refine ⟨rfl, by decide, fun hd => ?_⟩
  rw [exec_andc, loadLogic_of_ne_gap _ hd, bitAnd, bitNot]

/-- Settles O14: OR is the common part with the disjunction. -/
theorem orDisjoinsSelectedBit : Obligations.OrDisjoinsSelectedBit := by
  intro d s
  refine ⟨rfl, by decide, fun hd => ?_⟩
  rw [exec_or, loadLogic_of_ne_gap _ hd, bitOr]

/-- Settles O15: ORC is the common part with the disjunction with the complement. -/
theorem orcDisjoinsComplement : Obligations.OrcDisjoinsComplement := by
  intro d s
  refine ⟨rfl, by decide, fun hd => ?_⟩
  rw [exec_orc, loadLogic_of_ne_gap _ hd, bitOr, bitNot]

/-- Settles O16: XNOR is the common part with the test for equality. -/
theorem xnorComparesSelectedBit : Obligations.XnorComparesSelectedBit := by
  intro d s
  refine ⟨rfl, by decide, fun hd => ?_⟩
  rw [exec_xnor, loadLogic_of_ne_gap _ hd, bitXnor_eq_decide]

end Sys2Proof.Machine

/-! PROOF. The stores outside the address-0 gap (spec 42_store.md R90 to R92): the common part writes one RAM cell above
0x8 and one output pin from 0x1 to 0x7, and the two instructions differ in the bit they hand to it. -/

namespace Sys2Proof.Machine

/-! ### The common part, by the range of the operand -/

/-- From 0x9 to 0xF the common part writes the RAM cell, advances `pc` by one and changes nothing else
(spec 20_memory.md R30). -/
theorem storeBit_of_gt {d : Nibble} (h : 8 < d.toNat) (v : Bit) (s : State) :
    storeBit d v s = .next { s with ram := s.ram.writeBit (d.toNat - 8) v, pc := s.pc + 1 } := by
  rcases storeBit_cases d v s with ⟨rfl | rfl, -⟩ | ⟨-, hram⟩ | ⟨-, hpin, -⟩
  · exact absurd h (by decide)
  · exact absurd h (by decide)
  · exact hram
  · exact absurd h hpin.not_gt

/-- From 0x1 to 0x7 the common part writes the output pin, advances `pc` by one and changes nothing else
(spec 20_memory.md R30). -/
theorem storeBit_of_lt {d : Nibble} (h₀ : 0 < d.toNat) (h : d.toNat < 8) (v : Bit) (s : State) :
    storeBit d v s = .next { s with out := s.out.writeBit d.toNat v, pc := s.pc + 1 } := by
  rcases storeBit_cases d v s with ⟨rfl | rfl, -⟩ | ⟨hram, -⟩ | ⟨-, -, hpin⟩
  · exact absurd h (by decide)
  · exact absurd h₀ (by decide)
  · exact absurd h hram.not_gt
  · exact hpin

/-! ### The two instructions -/

/-- Settles O19: STO is the common part with `RR` itself. -/
theorem stoWritesAccumulator : Obligations.StoWritesAccumulator := by
  intro d s
  refine ⟨rfl, by decide, fun h => ?_, fun ⟨h₀, h⟩ => ?_⟩
  · rw [exec_sto, storeBit_of_gt h]
  · rw [exec_sto, storeBit_of_lt h₀ h]

/-- Settles O20: STOC is the common part with the complement of `RR`, which it leaves in place. -/
theorem stocWritesComplement : Obligations.StocWritesComplement := by
  intro d s
  refine ⟨rfl, by decide, fun h => ?_, fun ⟨h₀, h⟩ => ?_⟩
  · rw [exec_stoc, storeBit_of_gt h, bitNot]
  · rw [exec_stoc, storeBit_of_lt h₀ h, bitNot]

end Sys2Proof.Machine

/-! PROOF. The enable-register instructions (spec 43_enable.md R93, R94): each writes the operand nibble itself into its
register and is then the plain advance by one word, with no read of the data space, so there is no operand at which it
faults. The dump shows a register once it is written. -/

namespace Sys2Proof.Machine

/-! ### The dump of a written register -/

/-- Once written, `IEN` is shown with its value (spec 70_reset_and_hazards.md R128). -/
theorem readOutputs_ien_of_written {s : State} (h : s.ienWritten = true) : (readOutputs s).ien = some s.ien :=
  if_pos h

/-- Once written, `OEN` is shown with its value (spec 70_reset_and_hazards.md R128). -/
theorem readOutputs_oen_of_written {s : State} (h : s.oenWritten = true) : (readOutputs s).oen = some s.oen :=
  if_pos h

/-! ### The two instructions -/

theorem exec_ien (d : Nibble) (s : State) : exec (.ien d) s = advance 1 (s.setIen d) := rfl
theorem exec_oen (d : Nibble) (s : State) : exec (.oen d) s = advance 1 (s.setOen d) := rfl

/-- Settles O25: IEN writes its register and advances, and the one next state has the register marked written. -/
theorem ienStoresOperandVerbatim : Obligations.IenStoresOperandVerbatim := by
  intro d s
  refine ⟨rfl, by decide, exec_ien d s, fun t ht => ?_⟩
  obtain rfl : (s.setIen d).setPc (s.pc + 1) = t := Host.Outcome.next.inj ((exec_ien d s).symm.trans ht)
  rw [readOutputs_ien_of_written (by simp), State.setPc_ien, State.setIen_ien]

/-- Settles O26: OEN writes its register and advances, and the one next state has the register marked written. -/
theorem oenStoresOperandVerbatim : Obligations.OenStoresOperandVerbatim := by
  intro d s
  refine ⟨rfl, by decide, exec_oen d s, fun t ht => ?_⟩
  obtain rfl : (s.setOen d).setPc (s.pc + 1) = t := Host.Outcome.next.inj ((exec_oen d s).symm.trans ht)
  rw [readOutputs_oen_of_written (by simp), State.setPc_oen, State.setOen_oen]

end Sys2Proof.Machine

/-! PROOF. The control transfers (spec 44_control.md R96 to R99, R101): an enabled step executes the fetched word;
a JMP goes to its target, or raises the underflow fault when the target is negative; RTN and SKZ are the plain advance,
and SKZ's length depends on `RR`. -/

namespace Sys2Proof.Machine

/-! ### The jump, by its target -/

/-- A JMP whose target is the word index `n` moves `pc` there and changes nothing else (spec 44_control.md R97). -/
theorem exec_jmp_of_target_eq {d : Nibble} {s : State} {n : Nat} (h : branchTarget s.pc d = (n : Int)) :
    exec (.jmp d) s = .next { s with pc := n } := by
  have hnonneg : 0 ≤ branchTarget s.pc d := by omega
  rw [exec_jmp_of_target_nonneg hnonneg, h, Int.toNat_natCast, State.setPc]

/-- A JMP with a negative target sets the mark to that target and changes nothing else (spec 44_control.md R97,
60_exceptions.md R108). -/
theorem exec_jmp_of_target_neg {d : Nibble} {s : State} (h : branchTarget s.pc d < 0) :
    exec (.jmp d) s = .next { s with fault := some (.pcUnderflow (branchTarget s.pc d)) } := by
  rw [exec_jmp]
  rcases branchTo_cases (branchTarget s.pc d) s with ⟨-, hfault⟩ | ⟨hnonneg, -⟩
  · exact hfault
  · omega

/-- Settles O31: each row's number is its operand's displacement counted from `pc` itself, and the sign of the target
decides between the move and the fault. -/
theorem jmpTargetTable : Obligations.JmpTargetTable := by
  intro s
  refine ⟨fun row hrow => ?_, fun row hrow => ?_⟩
  · have hdisp : branchDisplacement row.1 = (row.2 : Int) - 1 := by revert row; decide
    exact exec_jmp_of_target_eq (by rw [branchTarget, hdisp]; omega)
  · have hdisp : branchDisplacement row.1 = -(row.2 : Int) - 1 := by revert row; decide
    have htarget : branchTarget s.pc row.1 = (s.pc : Int) - (row.2 : Nat) := by
      rw [branchTarget, hdisp]; omega
    refine ⟨fun hle => exec_jmp_of_target_eq (by omega), fun hlt => ?_⟩
    rw [exec_jmp_of_target_neg (by omega), htarget]

/-! ### The enabled step -/

/-- With the mark clear and a word at `pc`, a step is the execution of that word's instruction (spec 44_control.md
R96). -/
theorem step_of_fetch {s : State} {w : Word} (hf : s.fault = none) (hw : fetch s = some w) :
    step s = exec (decode w) s := by
  simp [step, hf, hw]

/-- Settles O1: the word at `pc` is the fetched one. -/
theorem stepRunsDecodedInstruction : Obligations.StepRunsDecodedInstruction := by
  rintro s w _ hf hw rfl -
  exact step_of_fetch hf hw

/-! ### The skips -/

theorem exec_rtn (d : Nibble) (s : State) : exec (.rtn d) s = advance 2 s := rfl

theorem exec_skz_of_zero (d : Nibble) {s : State} (h : s.rr = false) : exec (.skz d) s = advance 2 s := by
  rw [exec_skz, h]; rfl

theorem exec_skz_of_one (d : Nibble) {s : State} (h : s.rr = true) : exec (.skz d) s = advance 1 s := by
  rw [exec_skz, h]; rfl

/-- Settles O32: RTN is the advance by two words, and `ret` is a basic mnemonic with a default operand. -/
theorem rtnSkipsNextWord : Obligations.RtnSkipsNextWord := by
  intro d s
  have hret : basicOpcode "ret".toList = some 0xD#4 := by decide
  have hdefault : bareDefault "ret".toList = some 0x1#4 := by decide
  exact ⟨rfl, hret, fun cfg => assembleLine_bareMnemonic cfg hret hdefault, exec_rtn d s⟩

/-- Settles O33: SKZ is the advance by two words or by one, and `skz` is a basic mnemonic with a default operand. -/
theorem skzSkipsOnZero : Obligations.SkzSkipsOnZero := by
  intro d s
  have hskz : basicOpcode "skz".toList = some 0xE#4 := by decide
  have hdefault : bareDefault "skz".toList = some 0x1#4 := by decide
  exact ⟨rfl, hskz, fun cfg => assembleLine_bareMnemonic cfg hskz hdefault,
    exec_skz_of_zero d, exec_skz_of_one d⟩

end Sys2Proof.Machine

/-! PROOF. The decoder and the encoder (spec 30_encoding.md R46, R52, R53): packing an opcode and an operand nibble and
taking them out again are inverse to each other, and so are taking an instruction apart into these two and the opcode
map. -/

namespace Sys2Proof

/-- The opcode map gives back the instruction whose opcode and operand it is handed (spec 30_encoding.md R52). -/
theorem instrOf_opcode_operand (i : Instr) : instrOf i.opcode i.operand = i := by
  cases i <;> rfl

/-- Decoding the word of an instruction gives the instruction back. -/
@[simp] theorem decode_encode (i : Instr) : decode (encode i) = i := by
  rw [encode, decode_packWord, instrOf_opcode_operand]

/-- Settles O4: packing is undone by the two fields, and the opcode map by opcode and operand. -/
theorem decodeEncodeAgree : Obligations.DecodeEncodeAgree :=
  fun i _ => decode_encode i

/-- The word of a decoded instruction is the word itself. -/
@[simp] theorem encode_decode (w : Word) : encode (decode w) = w := by
  obtain ⟨hop, hd⟩ := Machine.instrOf_fields (opcodeField w) (operandField w)
  rw [encode, decode, hop, hd, packWord_fields]

/-- Every operand is legal for every opcode (spec 30_encoding.md R53). -/
theorem wellFormed_eq_true (i : Instr) : i.wellFormed = true := by
  cases i <;> rfl

/-- Settles O5: a word is its two fields, and the decoded instruction has these as opcode and operand. -/
theorem everyWordIsAnInstructionsWord : Obligations.EveryWordIsAnInstructionsWord :=
  fun w => ⟨wellFormed_eq_true _, encode_decode w⟩

/-- Settles O3: each row's word is the packing of its number and `d`. -/
theorem opcodeMapDecodes : Obligations.OpcodeMapDecodes := by
  intro d
  have hrow : ∀ op : Nibble, decode (op ++ d) = instrOf op d := fun op => decode_packWord op d
  simp only [hrow]
  exact ⟨rfl, rfl, rfl, rfl, rfl, rfl, rfl, rfl, rfl, rfl, rfl, rfl, rfl, rfl, rfl, rfl⟩

/-- Settles O2 by evaluating the decoder at the sixteen words. -/
theorem writtenWordsDecode : Obligations.WrittenWordsDecode := by
  unfold Obligations.WrittenWordsDecode
  decide

end Sys2Proof

/-! PROOF. The address-0 gap and the frames (spec 41_load_logic.md R82, 42_store.md R92, 20_memory.md R31, R34): the
seven load and logic instructions are one shared operation, the two stores another, and the five that touch no data move
`pc` or raise a fault. Each family's fault, frame and composition is read off the cases of its operation. -/

namespace Sys2Proof.Machine

/-! ### The families -/

/-- Each of the seven load and logic instructions is the common part with its own bit function (spec 41_load_logic.md
R82). -/
theorem exec_loadLogic_family {mk : Nibble → Instr}
    (h : mk ∈ [Instr.ld, Instr.ldc, Instr.and, Instr.andc, Instr.or, Instr.orc, Instr.xnor]) :
    ∃ alu, ∀ d s, exec (mk d) s = loadLogic alu d s := by
  simp only [List.mem_cons, List.not_mem_nil, or_false] at h
  rcases h with rfl | rfl | rfl | rfl | rfl | rfl | rfl
  · exact ⟨_, exec_ld⟩
  · exact ⟨_, exec_ldc⟩
  · exact ⟨_, exec_and⟩
  · exact ⟨_, exec_andc⟩
  · exact ⟨_, exec_or⟩
  · exact ⟨_, exec_orc⟩
  · exact ⟨_, exec_xnor⟩

/-- Each of the two stores is the common part with a bit of its own made from `RR` (spec 42_store.md R92). -/
theorem exec_store_family {mk : Nibble → Instr} (h : mk ∈ [Instr.sto, Instr.stoc]) :
    ∃ value : Bit → Bit, ∀ d s, exec (mk d) s = storeBit d (value s.rr) s := by
  simp only [List.mem_cons, List.not_mem_nil, or_false] at h
  rcases h with rfl | rfl
  · exact ⟨id, exec_sto⟩
  · exact ⟨bitNot, exec_stoc⟩

/-- NOP, NOPF, JMP, RTN and SKZ move `pc` or raise a fault, and do nothing else. -/
theorem exec_control_family {mk : Nibble → Instr}
    (h : mk ∈ [Instr.nop, Instr.nopf, Instr.jmp, Instr.rtn, Instr.skz]) (d : Nibble) (s : State) :
    (∃ n, exec (mk d) s = .next (s.setPc n)) ∨ (∃ f, exec (mk d) s = .next (s.setFault f)) := by
  simp only [List.mem_cons, List.not_mem_nil, or_false] at h
  rcases h with rfl | rfl | rfl | rfl | rfl
  · exact .inl ⟨_, exec_nop d s⟩
  · exact .inl ⟨_, exec_nopf d s⟩
  · rcases branchTo_cases (branchTarget s.pc d) s with ⟨-, hfault⟩ | ⟨-, hnext⟩
    · exact .inr ⟨_, hfault⟩
    · exact .inl ⟨_, hnext⟩
  · exact .inl ⟨_, exec_rtn d s⟩
  · exact .inl ⟨_, exec_skz d s⟩

/-! ### The faults at index 0 -/

/-- At 0x8 the common part of load and logic raises the fault and does nothing else (spec 20_memory.md R31). -/
theorem loadLogic_gap (alu : Bit → Bit → Bit) (s : State) :
    loadLogic alu 0x8#4 s = .next (s.setFault (.addrZero 0x8#4)) := by
  rcases loadLogic_cases alu 0x8#4 s with ⟨-, h⟩ | ⟨hram, -⟩ | ⟨hpin, -⟩
  · exact h
  · exact absurd hram (by decide)
  · exact absurd hpin (by decide)

/-- At 0x0 and 0x8 the common part of the stores raises the fault and does nothing else (spec 42_store.md R92). -/
theorem storeBit_gap {d : Nibble} (hd : d = 0x8#4 ∨ d = 0x0#4) (v : Bit) (s : State) :
    storeBit d v s = .next (s.setFault (.addrZero d)) := by
  rcases storeBit_cases d v s with ⟨-, h⟩ | ⟨hram, -⟩ | ⟨hpos, hpin, -⟩
  · exact h
  · rcases hd with rfl | rfl <;> exact absurd hram (by decide)
  · rcases hd with rfl | rfl
    · exact absurd hpin (by decide)
    · exact absurd hpos (by decide)

/-- Settles O17: the common part at 0x8, and away from it. -/
theorem loadLogicFaultsOnRamZero : Obligations.LoadLogicFaultsOnRamZero := by
  intro s mk hmk
  obtain ⟨alu, hexec⟩ := exec_loadLogic_family hmk
  refine ⟨(hexec _ s).trans (loadLogic_gap alu s), fun d hd => ?_⟩
  exact ⟨_, (hexec d s).trans (loadLogic_of_ne_gap alu hd s), rfl⟩

/-- Settles O21: the common part at the two addresses of index 0, and in its two ranges. -/
theorem storesFaultOnIndexZero : Obligations.StoresFaultOnIndexZero := by
  intro s mk hmk
  obtain ⟨value, hexec⟩ := exec_store_family hmk
  refine ⟨(hexec _ s).trans (storeBit_gap (.inr rfl) _ s), (hexec _ s).trans (storeBit_gap (.inl rfl) _ s),
    fun d h0 h8 => ?_⟩
  rcases storeBit_cases d (value s.rr) s with ⟨hgap, -⟩ | ⟨-, hram⟩ | ⟨-, -, hpin⟩
  · exact absurd hgap (not_or.mpr ⟨h8, h0⟩)
  · exact ⟨_, (hexec d s).trans hram, rfl⟩
  · exact ⟨_, (hexec d s).trans hpin, rfl⟩

/-! ### The frames -/

section
variable (s : State)

theorem frameOutsideData_setFault (f : Fault) : FrameOutsideData s (s.setFault f) := ⟨rfl, rfl, rfl, rfl, rfl⟩
theorem frameOutsideData_setPc (n : Nat) : FrameOutsideData s (s.setPc n) := ⟨rfl, rfl, rfl, rfl, rfl⟩
theorem dataUnchanged_setFault (f : Fault) : DataUnchanged s (s.setFault f) :=
  ⟨fun _ => rfl, fun _ => rfl, fun _ => rfl⟩
theorem dataUnchanged_setPc (n : Nat) : DataUnchanged s (s.setPc n) := ⟨fun _ => rfl, fun _ => rfl, fun _ => rfl⟩

end

/-- Settles O18: the common part sets the mark, or writes `RR` and `pc`. -/
theorem loadLogicFrame : Obligations.LoadLogicFrame := by
  intro d s t mk hmk ht
  obtain ⟨alu, hexec⟩ := exec_loadLogic_family hmk
  rw [hexec] at ht
  rcases loadLogic_cases alu d s with ⟨-, h⟩ | ⟨-, h⟩ | ⟨-, h⟩
  · obtain rfl := Host.Outcome.next.inj (h.symm.trans ht)
    exact ⟨frameOutsideData_setFault s _, dataUnchanged_setFault s _⟩
  · obtain rfl := Host.Outcome.next.inj (h.symm.trans ht)
    exact ⟨⟨rfl, rfl, rfl, rfl, rfl⟩, ⟨fun _ => rfl, fun _ => rfl, fun _ => rfl⟩⟩
  · obtain rfl := Host.Outcome.next.inj (h.symm.trans ht)
    exact ⟨⟨rfl, rfl, rfl, rfl, rfl⟩, ⟨fun _ => rfl, fun _ => rfl, fun _ => rfl⟩⟩

/-- From 0x9 to 0xF a data address selects the RAM cell `d - 8` (spec 20_memory.md R28). -/
theorem domain_index_of_gt {d : Nibble} (h : 8 < d.toNat) : domainOf d = .ram ∧ indexOf d = d.toNat - 8 := by
  rcases domain_index d with ⟨-, hdom, hidx⟩ | ⟨hlt, -, -⟩
  · exact ⟨hdom, hidx⟩
  · omega

/-- From 0x0 to 0x7 a data address selects the pin `d` (spec 20_memory.md R28). -/
theorem domain_index_of_lt {d : Nibble} (h : d.toNat < 8) : domainOf d = .pins ∧ indexOf d = d.toNat := by
  rcases domain_index d with ⟨hge, -, -⟩ | ⟨-, hdom, hidx⟩
  · omega
  · exact ⟨hdom, hidx⟩

/-- Settles O22: the common part sets the mark, or writes the one selected cell. -/
theorem storeFrame : Obligations.StoreFrame := by
  intro d s t mk hmk ht
  obtain ⟨value, hexec⟩ := exec_store_family hmk
  rw [hexec] at ht
  rcases storeBit_cases d (value s.rr) s with ⟨-, h⟩ | ⟨hram, h⟩ | ⟨-, hpin, h⟩
  · obtain rfl := Host.Outcome.next.inj (h.symm.trans ht)
    exact ⟨frameOutsideData_setFault s _, rfl, fun _ => rfl, fun _ _ => rfl, fun _ _ => rfl⟩
  · obtain rfl := Host.Outcome.next.inj (h.symm.trans ht)
    obtain ⟨hdom, hidx⟩ := domain_index_of_gt hram
    refine ⟨⟨rfl, rfl, rfl, rfl, rfl⟩, rfl, fun _ => rfl, fun a ha => ?_, fun _ _ => rfl⟩
    exact Memory.read_writeBit_other s.ram _ fun heq => ha ⟨hdom, heq.trans hidx.symm⟩
  · obtain rfl := Host.Outcome.next.inj (h.symm.trans ht)
    obtain ⟨hdom, hidx⟩ := domain_index_of_lt hpin
    refine ⟨⟨rfl, rfl, rfl, rfl, rfl⟩, rfl, fun _ => rfl, fun _ _ => rfl, fun a ha => ?_⟩
    exact Memory.read_writeBit_other s.out _ fun heq => ha ⟨hdom, heq.trans hidx.symm⟩

/-- Settles O35: five of the instructions move `pc` or set the mark, and IEN and OEN write their own register. -/
theorem noDataInstructionsFrame : Obligations.NoDataInstructionsFrame := by
  intro d s t
  refine ⟨fun mk hmk ht => ?_, fun ht => ?_, fun ht => ?_⟩
  · rcases exec_control_family hmk d s with ⟨n, h⟩ | ⟨f, h⟩
    · obtain rfl := Host.Outcome.next.inj (h.symm.trans ht)
      exact ⟨frameOutsideData_setPc s n, dataUnchanged_setPc s n, rfl⟩
    · obtain rfl := Host.Outcome.next.inj (h.symm.trans ht)
      exact ⟨frameOutsideData_setFault s f, dataUnchanged_setFault s f, rfl⟩
  · obtain rfl := Host.Outcome.next.inj ((exec_ien d s).symm.trans ht)
    exact ⟨⟨fun _ => rfl, fun _ => rfl, fun _ => rfl⟩, rfl, rfl, rfl, rfl, rfl⟩
  · obtain rfl := Host.Outcome.next.inj ((exec_oen d s).symm.trans ht)
    exact ⟨⟨fun _ => rfl, fun _ => rfl, fun _ => rfl⟩, rfl, rfl, rfl, rfl, rfl⟩

/-! ### A store and what follows it -/

/-- After a store of `v` to a RAM address the read view shows `v` there (spec 42_store.md R92). -/
theorem storeBit_then_selected {d : Nibble} (h : 8 < d.toNat) (v : Bit) (s : State) :
    ∃ t, storeBit d v s = .next t ∧ t.rr = s.rr ∧ t.ram.readBit (d.toNat - 8) = v ∧ selectedBit d t = v := by
  have hread : (s.ram.writeBit (d.toNat - 8) v).readBit (d.toNat - 8) = v := Memory.readBit_writeBit_same _ _ _
  exact ⟨_, storeBit_of_gt h v s, rfl, hread, (selectedBit_of_gt h _).trans hread⟩

/-- Settles O23: a RAM store changes the read view, a pin store writes where the read view does not look. -/
theorem storedRamBitIsReadBackAndOutputBitIsNot : Obligations.StoredRamBitIsReadBackAndOutputBitIsNot := by
  intro d s h0 h8
  have hld := fun t => (exec_ld d t).trans (loadLogic_of_ne_gap (fun _ sel => sel) h8 t)
  rcases storeBit_cases d s.rr s with ⟨hgap, -⟩ | ⟨hram, -⟩ | ⟨-, hpin, h⟩
  · exact absurd hgap (not_or.mpr ⟨h8, h0⟩)
  · obtain ⟨t, ht, -, hcell, hsel⟩ := storeBit_then_selected hram s.rr s
    exact ⟨t, _, (exec_sto d s).trans ht, hld t, fun _ => ⟨hcell, hsel⟩, fun hlt => absurd hlt hram.not_gt⟩
  · refine ⟨_, _, (exec_sto d s).trans h, hld _, fun hgt => absurd hgt hpin.not_gt, fun _ => ⟨?_, ?_⟩⟩
    · exact Memory.readBit_writeBit_same _ _ _
    · exact selectedBit_of_lt hpin _

/-- Settles O24: after the store `RR` and the selected bit are equal, so XNOR gives 1 and ANDC gives 0. -/
theorem storeThenCompareIdentities : Obligations.StoreThenCompareIdentities := by
  intro d s hram
  have hgap : d ≠ 0x8#4 := by rintro rfl; exact absurd hram (by decide)
  obtain ⟨t, ht, hrr, -, hsel⟩ := storeBit_then_selected hram s.rr s
  refine ⟨t, (exec_sto d s).trans ht, ⟨_, (exec_xnor d t).trans (loadLogic_of_ne_gap _ hgap t), ?_⟩,
    ⟨_, (exec_andc d t).trans (loadLogic_of_ne_gap _ hgap t), ?_⟩⟩
  · simp [hrr, hsel, bitXnor]
  · simp [hrr, hsel, bitAnd, bitNot]

end Sys2Proof.Machine

/-! PROOF. Jumps and programs of a few words (spec 44_control.md R97, R99, R102): the branch rule in the two directions,
the steps over an instruction whose word stands at `pc`, and a word placed by the host. -/

namespace Sys2Proof.Machine

/-! ### The branch rule -/

/-- The target of a forward JMP (spec 44_control.md R97). -/
theorem branchTarget_forward (pc : Nat) {d : Nibble} (h : 8 ≤ d.toNat) :
    branchTarget pc d = ((pc + 1 + 4 * (d.toNat - 7) : Nat) : Int) := by
  rcases branchTarget_cases pc d with ⟨-, htarget⟩ | ⟨hlt, -⟩
  · exact htarget
  · omega

/-- The target of a backward JMP, in the integers (spec 44_control.md R97). -/
theorem branchTarget_backward (pc : Nat) {d : Nibble} (h : d.toNat < 8) :
    branchTarget pc d = (pc : Int) + 1 - 4 * ((d.toNat : Int) + 1) := by
  rcases branchTarget_cases pc d with ⟨hge, -⟩ | ⟨-, htarget⟩
  · omega
  · exact htarget

/-- Settles O29: both targets are word indices. -/
theorem jmpMovesRelative : Obligations.JmpMovesRelative := by
  intro d s
  refine ⟨rfl, by decide, fun h => exec_jmp_of_target_eq (branchTarget_forward s.pc h), fun h hle => ?_⟩
  exact exec_jmp_of_target_eq (by rw [branchTarget_backward s.pc h]; omega)

/-- Settles O30: the target is negative. -/
theorem jmpBelowWordZeroFaults : Obligations.JmpBelowWordZeroFaults := by
  intro d s h hlt
  rw [exec_jmp_of_target_neg (by rw [branchTarget_backward s.pc h]; omega), branchTarget_backward s.pc h]

/-! ### Steps over encoded instructions -/

/-- With the mark clear and the word of an instruction at `pc`, a step executes that instruction. -/
theorem step_of_encode {s : State} {i : Instr} (hf : s.fault = none) (hw : s.prog[s.pc]? = some (encode i)) :
    step s = exec i s := by
  rw [step_of_fetch hf hw, decode_encode]

section
variable {s : State} (hf : s.fault = none)
include hf

/-- A step at a SKZ moves on by two words when `RR = 0` (spec 44_control.md R99). -/
theorem step_skz_of_zero {a : Nibble} (hw : s.prog[s.pc]? = some (encode (.skz a))) (hrr : s.rr = false) :
    step s = .next (s.setPc (s.pc + 2)) :=
  (step_of_encode hf hw).trans (exec_skz_of_zero a hrr)

/-- A step at a SKZ moves on by one word when `RR = 1` (spec 44_control.md R99). -/
theorem step_skz_of_one {a : Nibble} (hw : s.prog[s.pc]? = some (encode (.skz a))) (hrr : s.rr = true) :
    step s = .next (s.setPc (s.pc + 1)) :=
  (step_of_encode hf hw).trans (exec_skz_of_one a hrr)

/-- A step at a RTN skips the word after it (spec 44_control.md R98). -/
theorem step_rtn_at {n : Nat} {b : Nibble} (hw : s.prog[n]? = some (encode (.rtn b))) :
    step (s.setPc n) = .next (s.setPc (n + 2)) :=
  (step_of_encode (s := s.setPc n) hf hw).trans (exec_rtn b _)

/-- A step at a JMP with a target at or above word 0 goes to the target (spec 44_control.md R97). -/
theorem step_jmp_at {n : Nat} {d : Nibble} (hw : s.prog[n]? = some (encode (.jmp d))) (h : 0 ≤ branchTarget n d) :
    step (s.setPc n) = .next (s.setPc (branchTarget n d).toNat) :=
  (step_of_encode (s := s.setPc n) hf hw).trans (exec_jmp_of_target_nonneg h)

end

/-- Settles O34: SKZ chooses the word it goes on to, and the instruction there does the rest. -/
theorem composedConditionalJumps : Obligations.ComposedConditionalJumps := by
  intro s a b d hf hskz
  refine ⟨fun hjmp htarget => ⟨fun hrr => ?_, fun hrr => ?_⟩, fun hrtn hjmp htarget => ⟨fun hrr => ?_, fun hrr => ?_⟩⟩
  · exact ⟨_, step_skz_of_one hf hskz hrr, step_jmp_at hf hjmp htarget⟩
  · exact step_skz_of_zero hf hskz hrr
  · exact ⟨_, step_skz_of_zero hf hskz hrr, step_jmp_at hf hjmp htarget⟩
  · exact ⟨_, step_skz_of_one hf hskz hrr, step_rtn_at hf hrtn⟩

/-! ### A placed word -/

/-- The placed word stands at its index, however short the program was. -/
theorem getElem?_placeWord (prog : List Word) (n : Nat) (w : Word) : (placeWord prog n w)[n]? = some w := by
  have hlen : n < (prog ++ List.replicate (n + 1 - prog.length) Config.paddingWord).length := by
    rw [List.length_append, List.length_replicate]; omega
  exact List.getElem?_set_self hlen

/-- Settles O6: the placed word is the fetched one, and the mark is clear. -/
theorem placedWordRunsNext : Obligations.PlacedWordRunsNext := by
  intro s w hw
  have hword : wordOfBits 8 w = BitVec.ofNat 8 w := by rw [wordOfBits, Nat.mod_eq_of_lt (by omega)]
  have hfetch : fetch (s.withFetchWord 8 w) = some (BitVec.ofNat 8 w) := by
    rw [← hword]; exact getElem?_placeWord s.prog s.pc _
  exact ⟨hfetch, step_of_fetch rfl hfetch⟩

end Sys2Proof.Machine

/-! PROOF. What each instruction can do, with the instruction named (spec 10_state.md section 7, 60_exceptions.md R105
to R108): one inversion of `exec` says which updates an instruction makes and under which condition on its opcode and
operand. Who writes what, where the faults are, and the step's invariant are read off its cases. -/

namespace Sys2Proof.Machine

/-! ### The updates of an instruction -/

/-- The opcodes of the load and logic instructions (spec 30_encoding.md R52). -/
abbrev loadLogicOpcodes : List Nibble := [0x1#4, 0x2#4, 0x3#4, 0x4#4, 0x5#4, 0x6#4, 0x7#4]

/-- The opcodes of the stores (spec 30_encoding.md R52). -/
abbrev storeOpcodes : List Nibble := [0x8#4, 0x9#4]

/-- The opcodes of NOP, JMP, RTN, SKZ and NOPF (spec 30_encoding.md R52). -/
abbrev controlOpcodes : List Nibble := [0x0#4, 0xC#4, 0xD#4, 0xE#4, 0xF#4]

/-- The updates that the instruction `i` can make to a state, with what they say of its opcode and operand. -/
inductive InstrEffect (s : State) (i : Instr) : State → Prop where
  /-- One of the eleven words raised its fault (spec 60_exceptions.md R107). -/
  | addrZero (hgap : encode i ∈ gapWords) : InstrEffect s i (s.setFault (.addrZero i.operand))
  /-- A JMP below word 0 raised its fault (spec 60_exceptions.md R108). -/
  | pcUnderflow (hop : i.opcode = 0xC#4) (hneg : branchTarget s.pc i.operand < 0) :
      InstrEffect s i (s.setFault (.pcUnderflow (branchTarget s.pc i.operand)))
  /-- A load or logic instruction gave `RR` a value. -/
  | loaded (b : Bit) (hop : i.opcode ∈ loadLogicOpcodes)
      (hd : i.operand ≠ 0x8#4) : InstrEffect s i ((s.setRR b).setPc (s.pc + 1))
  /-- A store wrote one RAM cell. -/
  | storedRam (b : Bit) (hop : i.opcode ∈ storeOpcodes) (hd : 8 < i.operand.toNat) :
      InstrEffect s i ((s.setRam (i.operand.toNat - 8) b).setPc (s.pc + 1))
  /-- A store wrote one output pin. -/
  | storedOut (b : Bit) (hop : i.opcode ∈ storeOpcodes) (hpos : 0 < i.operand.toNat)
      (hd : i.operand.toNat < 8) : InstrEffect s i ((s.setOut i.operand.toNat b).setPc (s.pc + 1))
  /-- IEN wrote its register. -/
  | setIen (hop : i.opcode = 0xA#4) : InstrEffect s i ((s.setIen i.operand).setPc (s.pc + 1))
  /-- OEN wrote its register. -/
  | setOen (hop : i.opcode = 0xB#4) : InstrEffect s i ((s.setOen i.operand).setPc (s.pc + 1))
  /-- Only `pc` moved, by at most 33 words forward; a JMP's target was a word index. -/
  | moved (n : Nat) (hop : i.opcode ∈ controlOpcodes) (hn : n ≤ s.pc + 33)
      (hjmp : i.opcode = 0xC#4 → 0 ≤ branchTarget s.pc i.operand) : InstrEffect s i (s.setPc n)

/-- The eleven words by opcode and operand (spec 60_exceptions.md R107). -/
theorem packWord_mem_gapWords (op d : Nibble) :
    packWord op d ∈ gapWords ↔
      op ∈ loadLogicOpcodes ∧ d = 0x8#4 ∨
      op ∈ storeOpcodes ∧ (d = 0x8#4 ∨ d = 0x0#4) := by
  revert op d; decide

theorem loadLogic_instrEffect {i : Instr} {alu : Bit → Bit → Bit} {s : State}
    (hexec : exec i s = loadLogic alu i.operand s)
    (hop : i.opcode ∈ loadLogicOpcodes) :
    ∃ t, exec i s = .next t ∧ InstrEffect s i t := by
  by_cases hd : i.operand = 0x8#4
  · have hgap : encode i ∈ gapWords := (packWord_mem_gapWords _ _).mpr (.inl ⟨hop, hd⟩)
    exact ⟨_, by rw [hexec, hd, loadLogic_gap, ← hd], .addrZero hgap⟩
  · exact ⟨_, hexec.trans (loadLogic_of_ne_gap alu hd s), .loaded _ hop hd⟩

theorem storeBit_instrEffect {i : Instr} {v : Bit} {s : State} (hexec : exec i s = storeBit i.operand v s)
    (hop : i.opcode ∈ storeOpcodes) : ∃ t, exec i s = .next t ∧ InstrEffect s i t := by
  rcases storeBit_cases i.operand v s with ⟨hgap, h⟩ | ⟨hram, h⟩ | ⟨hpos, hpin, h⟩
  · exact ⟨_, hexec.trans h, .addrZero ((packWord_mem_gapWords _ _).mpr (.inr ⟨hop, hgap⟩))⟩
  · exact ⟨_, hexec.trans h, .storedRam v hop hram⟩
  · exact ⟨_, hexec.trans h, .storedOut v hop hpos hpin⟩

/-- A branch target is at most 33 words on (spec 10_state.md R15). -/
theorem branchTarget_le (pc : Nat) (d : Nibble) : branchTarget pc d ≤ (pc : Int) + 33 := by
  have hd : d.toNat < 16 := d.isLt
  rcases branchTarget_cases pc d with ⟨-, h⟩ | ⟨-, h⟩ <;> omega

theorem exec_jmp_instrEffect (d : Nibble) (s : State) :
    ∃ t, exec (.jmp d) s = .next t ∧ InstrEffect s (.jmp d) t := by
  have hle := branchTarget_le s.pc d
  rcases branchTo_cases (branchTarget s.pc d) s with ⟨hneg, h⟩ | ⟨hnonneg, h⟩
  · exact ⟨_, h, .pcUnderflow rfl hneg⟩
  · exact ⟨_, h, .moved _ (by simp [Instr.opcode]) (by omega) fun _ => hnonneg⟩

/-- Every instruction answers a next state, and that state is one of the instruction's updates. -/
theorem exec_instrEffect (i : Instr) (s : State) : ∃ t, exec i s = .next t ∧ InstrEffect s i t := by
  cases i with
  | nop d => exact ⟨_, exec_nop d s, .moved _ (by simp [Instr.opcode]) (by omega) (by simp [Instr.opcode])⟩
  | nopf d => exact ⟨_, exec_nopf d s, .moved _ (by simp [Instr.opcode]) (by omega) (by simp [Instr.opcode])⟩
  | rtn d => exact ⟨_, exec_rtn d s, .moved _ (by simp [Instr.opcode]) (by omega) (by simp [Instr.opcode])⟩
  | skz d =>
    have hn : s.pc + (if skipsOnZero s.rr then 2 else 1) ≤ s.pc + 33 := by split <;> omega
    exact ⟨_, exec_skz d s, .moved _ (by simp [Instr.opcode]) hn (by simp [Instr.opcode])⟩
  | ld d => exact loadLogic_instrEffect (exec_ld d s) (by simp [Instr.opcode])
  | ldc d => exact loadLogic_instrEffect (exec_ldc d s) (by simp [Instr.opcode])
  | and d => exact loadLogic_instrEffect (exec_and d s) (by simp [Instr.opcode])
  | andc d => exact loadLogic_instrEffect (exec_andc d s) (by simp [Instr.opcode])
  | or d => exact loadLogic_instrEffect (exec_or d s) (by simp [Instr.opcode])
  | orc d => exact loadLogic_instrEffect (exec_orc d s) (by simp [Instr.opcode])
  | xnor d => exact loadLogic_instrEffect (exec_xnor d s) (by simp [Instr.opcode])
  | sto d => exact storeBit_instrEffect (exec_sto d s) (by simp [Instr.opcode])
  | stoc d => exact storeBit_instrEffect (exec_stoc d s) (by simp [Instr.opcode])
  | ien d => exact ⟨_, exec_ien d s, .setIen rfl⟩
  | oen d => exact ⟨_, exec_oen d s, .setOen rfl⟩
  | jmp d => exact exec_jmp_instrEffect d s

/-- The next state of an instruction is one of its updates. -/
theorem instrEffect_of_exec {i : Instr} {s t : State} (h : exec i s = .next t) : InstrEffect s i t := by
  obtain ⟨u, hu, heffect⟩ := exec_instrEffect i s
  exact Host.Outcome.next.inj (hu.symm.trans h) ▸ heffect

/-! ### Who writes what -/

/-- The domain bit of a data address, by its number (spec 20_memory.md R27). -/
theorem domainBit_eq (d : Nibble) : d.getLsbD 3 = decide (8 ≤ d.toNat) := by
  revert d; decide

/-- Settles O36: each update writes the state of its own instructions and leaves the rest. -/
theorem eachStateWrittenOnlyByItsInstructions : Obligations.EachStateWrittenOnlyByItsInstructions := by
  intro i s t ht
  rw [domainBit_eq]
  cases instrEffect_of_exec ht with
  | addrZero | pcUnderflow | moved => simp
  | loaded b hop hd => simpa using fun _ => hop
  | storedRam b hop hd => simpa [hd.le] using fun _ => List.mem_pair.mp hop
  | storedOut b hop hpos hd => simpa [hd] using fun _ => List.mem_pair.mp hop
  | setIen hop => simp [hop]
  | setOen hop => simp [hop]

/-! ### Where the faults are -/

/-- A JMP below word 0, by the fields of its word and its target (spec 60_exceptions.md R108). -/
theorem underflowsAt_encode (pc : Nat) (i : Instr) :
    underflowsAt pc (encode i) ↔ i.opcode = 0xC#4 ∧ branchTarget pc i.operand < 0 := by
  have hop : i.opcode.toNat < 16 := i.opcode.isLt
  have hd : i.operand.toNat < 16 := i.operand.isLt
  have hword : (encode i).toNat = 16 * i.opcode.toNat + i.operand.toNat := packWord_toNat _ _
  have hdiv : (encode i).toNat / 16 = i.opcode.toNat := by omega
  have hmod : (encode i).toNat % 16 = i.operand.toNat := by omega
  have hjmp : i.opcode = 0xC#4 ↔ i.opcode.toNat = 0xC := BitVec.toNat_eq
  rw [underflowsAt, hdiv, hmod, hjmp]
  rcases branchTarget_cases pc i.operand with ⟨hge, h⟩ | ⟨hlt, h⟩ <;> rw [h] <;> omega

/-- A JMP's negative target is what its word's fault records (spec 60_exceptions.md R105). -/
theorem recordedAt_pcUnderflow {pc : Nat} {i : Instr} (hop : i.opcode = 0xC#4)
    (hneg : branchTarget pc i.operand < 0) :
    (Fault.pcUnderflow (branchTarget pc i.operand)).recordedAt pc (encode i) := by
  have hunder := (underflowsAt_encode pc i).mpr ⟨hop, hneg⟩
  have hword : (encode i).toNat = 16 * i.opcode.toNat + i.operand.toNat := packWord_toNat _ _
  refine ⟨hunder, ?_⟩
  obtain ⟨-, hlt, -⟩ := hunder
  rw [branchTarget_backward pc (by omega), hword]
  omega

/-- The operand of one of the eleven words is what its fault records (spec 60_exceptions.md R105). -/
theorem recordedAt_addrZero {pc : Nat} {i : Instr} (hgap : encode i ∈ gapWords) :
    (Fault.addrZero i.operand).recordedAt pc (encode i) := by
  have hd : i.operand.toNat < 16 := i.operand.isLt
  have hword : (encode i).toNat = 16 * i.opcode.toNat + i.operand.toNat := packWord_toNat _ _
  exact ⟨hgap, by omega⟩

/-- Away from the gap a load or logic instruction, a store and an enable instruction have none of the eleven words,
and none of them is a JMP. -/
theorem not_faultWord_of_operand {i : Instr}
    (h : i.opcode ∈ loadLogicOpcodes ∧ i.operand ≠ 0x8#4 ∨
      i.opcode ∈ storeOpcodes ∧ (8 < i.operand.toNat ∨ 0 < i.operand.toNat ∧ i.operand.toNat < 8) ∨
      i.opcode ∈ [0xA#4, 0xB#4]) (pc : Nat) : ¬ (encode i ∈ gapWords ∨ underflowsAt pc (encode i)) := by
  have hfields : ∀ op d : Nibble,
      op ∈ loadLogicOpcodes ∧ d ≠ 0x8#4 ∨
        op ∈ storeOpcodes ∧ (8 < d.toNat ∨ 0 < d.toNat ∧ d.toNat < 8) ∨ op ∈ [0xA#4, 0xB#4] →
      packWord op d ∉ gapWords ∧ op ≠ 0xC#4 := by decide
  obtain ⟨hgap, hjmp⟩ := hfields _ _ h
  rw [underflowsAt_encode]
  exact not_or.mpr ⟨hgap, fun hunder => hjmp hunder.1⟩

/-- An instruction that only moved `pc` has none of the eleven words, and no target below word 0. -/
theorem not_faultWord_of_moved {i : Instr} {pc : Nat} (hop : i.opcode ∈ controlOpcodes)
    (hjmp : i.opcode = 0xC#4 → 0 ≤ branchTarget pc i.operand) :
    ¬ (encode i ∈ gapWords ∨ underflowsAt pc (encode i)) := by
  have hfields : ∀ op d : Nibble, op ∈ controlOpcodes → packWord op d ∉ gapWords := by decide
  rw [underflowsAt_encode]
  exact not_or.mpr ⟨hfields _ _ hop, fun ⟨hC, hneg⟩ => (hjmp hC).not_gt hneg⟩

/-- An update either raises a fault, at a word of R107 or R108, and then records that word's fault and changes nothing
else, or it leaves the mark alone, and then the word is none of these. -/
theorem InstrEffect.fault_cases {s t : State} {i : Instr} (h : InstrEffect s i t) :
    (∃ f, t = s.setFault f ∧ f.recordedAt s.pc (encode i) ∧
      (encode i ∈ gapWords ∨ underflowsAt s.pc (encode i))) ∨
    (t.fault = s.fault ∧ ¬ (encode i ∈ gapWords ∨ underflowsAt s.pc (encode i))) := by
  cases h with
  | addrZero hgap => exact .inl ⟨_, rfl, recordedAt_addrZero hgap, .inl hgap⟩
  | pcUnderflow hop hneg =>
    exact .inl ⟨_, rfl, recordedAt_pcUnderflow hop hneg, .inr ((underflowsAt_encode s.pc i).mpr ⟨hop, hneg⟩)⟩
  | loaded b hop hd => exact .inr ⟨rfl, not_faultWord_of_operand (.inl ⟨hop, hd⟩) s.pc⟩
  | storedRam b hop hd => exact .inr ⟨rfl, not_faultWord_of_operand (.inr (.inl ⟨hop, .inl hd⟩)) s.pc⟩
  | storedOut b hop hpos hd =>
    exact .inr ⟨rfl, not_faultWord_of_operand (.inr (.inl ⟨hop, .inr ⟨hpos, hd⟩⟩)) s.pc⟩
  | setIen hop => exact .inr ⟨rfl, not_faultWord_of_operand (.inr (.inr (by simp [hop]))) s.pc⟩
  | setOen hop => exact .inr ⟨rfl, not_faultWord_of_operand (.inr (.inr (by simp [hop]))) s.pc⟩
  | moved n hop hn hjmp => exact .inr ⟨rfl, not_faultWord_of_moved hop hjmp⟩

/-- Settles O40: the enabled step is an update of the instruction whose word stands at `pc`. -/
theorem faultsExactlyWhereListed : Obligations.FaultsExactlyWhereListed := by
  intro s w hf hw
  obtain ⟨t, ht, heffect⟩ := exec_instrEffect (decode w) s
  refine ⟨t, (step_of_fetch hf hw).trans ht, ?_⟩
  have hcases := heffect.fault_cases
  rw [encode_decode] at hcases
  rcases hcases with ⟨f, rfl, hrecorded, hword⟩ | ⟨hsame, hword⟩
  · refine ⟨⟨fun _ => hword, fun _ => Option.some_ne_none f⟩, fun g hg => ?_⟩
    obtain rfl : f = g := Option.some.inj hg
    exact hrecorded
  · have hnone : t.fault = none := hsame.trans hf
    exact ⟨⟨fun h => absurd hnone h, fun h => absurd h hword⟩, fun g hg => by simp [hnone] at hg⟩

/-! ### The invariant of the machine -/

/-- Every update keeps the three arrays canonical (log entry 13). -/
theorem InstrEffect.memories_wf {s t : State} {i : Instr} (h : InstrEffect s i t) (hs : s.Inv) :
    t.ram.wf Config.firstStoredCell = true ∧ t.inp.wf Config.firstInputPin = true ∧
      t.out.wf Config.firstStoredCell = true := by
  have hd : i.operand.toNat < 16 := i.operand.isLt
  cases h with
  | storedRam b hop h8 =>
    have hlo : Config.firstStoredCell ≤ i.operand.toNat - 8 := by simp only [Config.firstStoredCell]; omega
    have hhi : i.operand.toNat - 8 < Config.cellCount := by simp only [Config.cellCount]; omega
    exact ⟨Memory.wf_writeBit b hlo hhi hs.ram_wf, hs.inp_wf, hs.out_wf⟩
  | storedOut b hop hpos h8 => exact ⟨hs.ram_wf, hs.inp_wf, Memory.wf_writeBit b hpos h8 hs.out_wf⟩
  | addrZero | pcUnderflow | loaded | setIen | setOen | moved => exact ⟨hs.ram_wf, hs.inp_wf, hs.out_wf⟩

/-- Every update moves `pc` by at most 33 words forward. -/
theorem InstrEffect.pc_le {s t : State} {i : Instr} (h : InstrEffect s i t) : t.pc ≤ s.pc + 33 := by
  cases h with
  | moved n hop hn hjmp => exact hn
  | addrZero | pcUnderflow | loaded | storedRam | storedOut | setIen | setOen => simp

/-- No update changes the program. -/
theorem InstrEffect.prog_eq {s t : State} {i : Instr} (h : InstrEffect s i t) : t.prog = s.prog := by
  cases h <;> rfl

/-- Settles O46: an enabled step starts inside the program, so 33 words on are at most 32 beyond its end, and a mark it
sets is that of the word it fetched. -/
theorem stepKeepsMachineInvariant : Obligations.StepKeepsMachineInvariant := by
  intro s t hs hstep
  obtain ⟨hf, w, hw, hexec⟩ := step_next hstep
  have heffect := instrEffect_of_exec hexec
  obtain ⟨hram, hinp, hout⟩ := heffect.memories_wf hs
  have hprog := heffect.prog_eq
  refine ⟨hram, hinp, hout, ?_, fun f hft => ?_⟩
  · have hpc : s.pc < s.prog.length := (List.getElem?_eq_some_iff.mp hw).1
    have hle := heffect.pc_le
    rw [hprog]
    omega
  · have hcases := heffect.fault_cases
    rw [encode_decode] at hcases
    rcases hcases with ⟨g, rfl, hrecorded, -⟩ | ⟨hsame, -⟩
    · obtain rfl : g = f := Option.some.inj hft
      exact ⟨w, hw, hrecorded⟩
    · rw [hsame, hf] at hft
      cases hft

end Sys2Proof.Machine

/-! PROOF. Faults, the end of a run, and the host's actions (spec 60_exceptions.md R106, 70_reset_and_hazards.md R120 to
R128): a step request either steps or is refused, and a run under a list of host actions keeps whatever each of its
actions keeps. -/

namespace Sys2Proof.Machine

/-! ### The step request -/

/-- With the mark set every step is refused (spec 70_reset_and_hazards.md R126). -/
theorem step_of_fault {s : State} {f : Fault} (h : s.fault = some f) : step s = .refused (.machineFaulted f) := by
  simp [step, h]

/-- Without a mark and with `pc` at or beyond the end, the step is refused (spec 70_reset_and_hazards.md R123). -/
theorem step_of_ended {s : State} (hf : s.fault = none) (hpc : s.prog.length ≤ s.pc) :
    step s = .refused .runEnded := by
  have hfetch : fetch s = none := List.getElem?_eq_none hpc
  simp [step, hf, hfetch]

theorem requestStep_of_next {s t : State} (h : step s = .next t) : requestStep s = accepted t := by
  simp [requestStep, h]

theorem requestStep_of_refused {s : State} {r : Refusal} (h : step s = .refused r) :
    requestStep s = declined s r := by
  simp [requestStep, h]

/-- A step answers a next state or is refused. -/
theorem step_next_or_refused (s : State) : (∃ t, step s = .next t) ∨ (∃ r, step s = .refused r) := by
  cases hf : s.fault with
  | some f => exact .inr ⟨_, step_of_fault hf⟩
  | none =>
    rcases Nat.lt_or_ge s.pc s.prog.length with hlt | hge
    · obtain ⟨t, ht, -⟩ := exec_effect (decode s.prog[s.pc]) s
      exact .inl ⟨t, (step_of_fetch hf (List.getElem?_eq_getElem hlt)).trans ht⟩
    · exact .inr ⟨_, step_of_ended hf hge⟩

/-- What every next state keeps and a refused request leaves, a step request keeps. -/
theorem requestStep_keeps {P : State → Prop} {s : State} (hs : P s) (hnext : ∀ t, step s = .next t → P t) :
    P (requestStep s).state := by
  rcases step_next_or_refused s with ⟨t, ht⟩ | ⟨r, hr⟩
  · rw [requestStep_of_next ht]
    exact hnext t ht
  · rw [requestStep_of_refused hr]
    exact hs

/-- A state with a mark does not go on (spec 44_control.md R100). -/
theorem continueSignal_of_fault {s : State} {f : Fault} (h : s.fault = some f) : s.continueSignal = false := by
  simp [State.continueSignal, h]

/-- The continue signal is 1 exactly without a mark and inside the program (spec 44_control.md R100). -/
theorem continueSignal_iff (s : State) : s.continueSignal = true ↔ s.fault = none ∧ s.pc < s.prog.length := by
  rw [State.continueSignal, Bool.and_eq_true, Option.isNone_iff_eq_none, decide_eq_true_iff, State.progLength]

/-- A step changes neither the program nor an input pin (spec 20_memory.md R40, R44). -/
theorem step_prog_inp {s t : State} (h : step s = .next t) : t.prog = s.prog ∧ t.inp = s.inp := by
  obtain ⟨-, w, -, hexec⟩ := step_next h
  have hwritten := eachStateWrittenOnlyByItsInstructions (decode w) s t hexec
  obtain ⟨-, -, -, -, -, hinp, hprog⟩ := hwritten
  exact ⟨hprog, hinp⟩

/-- Settles O42: the fetch finds no word. -/
theorem endedRunRefusesSteps : Obligations.EndedRunRefusesSteps := by
  intro s hf hpc
  have hstep := step_of_ended hf hpc
  have hsignal : s.continueSignal = false := by
    simpa [hpc] using (continueSignal_iff s).not
  rw [requestStep_of_refused hstep]
  exact ⟨⟨hf, hpc⟩, hstep, rfl, hsignal, rfl⟩

/-- Settles O43: the reply carries the continue signal of the next state, whose program is the old one. -/
theorem continueSignalAfterStep : Obligations.ContinueSignalAfterStep := by
  intro s t ht
  rw [requestStep_of_next ht, ← (step_prog_inp ht).1]
  exact ⟨rfl, rfl, continueSignal_iff t⟩

/-! ### Textual loads and input pins -/

/-- A text that parses is loaded (spec 70_reset_and_hazards.md R125). -/
theorem loadText_of_ok {text : Text} {p : List Word} (h : parseProgram text = .ok p) :
    loadText text = .ok (load p) := by
  rw [loadText, h]; rfl

/-- A text that does not parse is refused for the same reason (spec 30_encoding.md R56). -/
theorem loadText_of_error {text : Text} {r : Refusal} (h : parseProgram text = .error r) :
    loadText text = .error r := by
  rw [loadText, h]; rfl

/-- What a textual load answers in the reply: the load of the parsed program, or the state as it was. -/
theorem hostAct_loadText_cases (text : Text) (s : State) :
    (∃ p, parseProgram text = .ok p ∧ hostAct (.loadText text) s = accepted (load p)) ∨
    (∃ r, parseProgram text = .error r ∧ hostAct (.loadText text) s = declined s r) := by
  cases h : parseProgram text with
  | ok p => exact .inl ⟨p, rfl, by rw [hostAct, loadText_of_ok h]; rfl⟩
  | error r => exact .inr ⟨r, rfl, by rw [hostAct, loadText_of_error h]; rfl⟩

/-- What an input assignment answers in the reply: the one pin assigned, or the state as it was, outside the domain
(spec 70_reset_and_hazards.md R127). -/
theorem hostAct_setInput_cases (pin value : Nat) (s : State) :
    (pin < 8 ∧ value < 2 ∧ setInput pin value s = .ok (s.setIn pin (decide (value = 1))) ∧
      hostAct (.setInput pin value) s = accepted (s.setIn pin (decide (value = 1)))) ∨
    ((8 ≤ pin ∨ 2 ≤ value) ∧ ∃ r, hostAct (.setInput pin value) s = declined s r) := by
  cases h : setInput pin value s with
  | ok t =>
    obtain ⟨hpin, hvalue, rfl⟩ := setInput_ok h
    exact .inl ⟨hpin, hvalue, rfl, by rw [hostAct, h]; rfl⟩
  | error r =>
    refine .inr ⟨?_, r, by rw [hostAct, h]; rfl⟩
    by_contra hdomain
    obtain ⟨hpin, hvalue⟩ : pin < 8 ∧ value < 2 := by omega
    simp [setInput, pinIndexOk, pinValueOk, Config.cellCount, hpin, hvalue] at h

/-- Settles O48: the two domains are disjoint, and the assigned pin is the written cell. -/
theorem setInputAssignsOnePin : Obligations.SetInputAssignsOnePin := by
  intro pin value s
  rcases hostAct_setInput_cases pin value s with ⟨hpin, hvalue, hset, hact⟩ | ⟨hdomain, r, hact⟩
  · refine ⟨fun _ _ => ⟨_, hset, by rw [hact]; rfl, rfl, Memory.readBit_writeBit_same _ _ _, fun a ha => ?_⟩,
      fun h => by omega⟩
    exact Memory.read_writeBit_other s.inp _ ha
  · refine ⟨fun _ _ => by omega, fun _ => ?_⟩
    rw [hact]
    exact ⟨rfl, Option.some_ne_none r⟩

/-! ### Faults -/

/-- A step that leaves a mark changed nothing but the mark (spec 60_exceptions.md R106). -/
theorem step_fault_precise {s t : State} {f : Fault} (h : step s = .next t) (ht : t.fault = some f) :
    t = s.setFault f := by
  obtain ⟨hf, w, -, hexec⟩ := step_next h
  rcases (instrEffect_of_exec hexec).fault_cases with ⟨g, rfl, -, -⟩ | ⟨hsame, -⟩
  · obtain rfl : g = f := Option.some.inj ht
    rfl
  · rw [hsame, hf] at ht
    cases ht

/-- In a state with a mark every action of the host but an accepted load keeps the mark. -/
theorem hostAct_keeps_fault {s : State} {f : Fault} (hf : s.fault = some f) {a : HostAction}
    (hload : ∀ p, a ≠ .load p) (htext : ∀ x p, a = .loadText x → parseProgram x ≠ .ok p) :
    (hostAct a s).state.fault = some f := by
  cases a with
  | load p => exact absurd rfl (hload p)
  | loadText x =>
    rcases hostAct_loadText_cases x s with ⟨p, hp, -⟩ | ⟨r, -, hact⟩
    · exact absurd hp (htext x p rfl)
    · rw [hact, declined_state, hf]
  | step => rw [hostAct, requestStep_of_refused (step_of_fault hf), declined_state, hf]
  | setInput pin value =>
    rcases hostAct_setInput_cases pin value s with ⟨-, -, -, hact⟩ | ⟨-, r, hact⟩
    · rw [hact, accepted_state, State.setIn_fault, hf]
    · rw [hact, declined_state, hf]
  | readOutputs => exact hf

/-- Settles O41: a fault is the mark alone, and with it steps are refused and only a load gives another state. -/
theorem faultIsPreciseAndSticky : Obligations.FaultIsPreciseAndSticky := by
  refine ⟨fun s t f => step_fault_precise, fun s f hf => ?_⟩
  have hstep := step_of_fault hf
  rw [requestStep_of_refused hstep]
  refine ⟨hstep, rfl, continueSignal_of_fault hf, rfl, fun a => hostAct_keeps_fault hf, fun p => rfl, fun x p hp => ?_⟩
  rw [hostAct, loadText_of_ok hp]
  rfl

/-! ### Runs under host actions -/

/-- A run keeps whatever each of its actions keeps. -/
theorem hostRun_keeps {P : State → Prop} {actions : List HostAction}
    (hact : ∀ a ∈ actions, ∀ s, P s → P (hostAct a s).state) {s : State} (hs : P s) : P (hostRun actions s) := by
  induction actions generalizing s with
  | nil => exact hs
  | cons a rest ih =>
    obtain ⟨ha, hrest⟩ := List.forall_mem_cons.mp hact
    exact ih hrest (ha s hs)

/-- A loaded state meets the invariant (spec 70_reset_and_hazards.md R120). -/
theorem load_inv (p : List Word) : (load p).Inv := by
  obtain ⟨hram, hinp, hout⟩ := reset_memories_wf
  exact ⟨hram, hinp, hout, Nat.zero_le _, fun f hf => nomatch hf⟩

/-- Settles O45: reset is the load of the empty program. -/
theorem resetMeetsMachineInvariant : Obligations.ResetMeetsMachineInvariant :=
  ⟨load_inv [], load_inv⟩

/-- Assigning an input pin keeps the invariant (spec 70_reset_and_hazards.md R127). -/
theorem setIn_inv {s : State} (hs : s.Inv) {pin : Nat} (hpin : pin < 8) (b : Bit) : (s.setIn pin b).Inv where
  ram_wf := hs.ram_wf
  inp_wf := Memory.wf_writeBit b (Nat.zero_le pin) hpin hs.inp_wf
  out_wf := hs.out_wf
  pc_bound := hs.pc_bound
  fault_recorded := hs.fault_recorded

/-- Every action of the host keeps the invariant, accepted or refused. -/
theorem hostAct_keeps_inv (a : HostAction) {s : State} (hs : s.Inv) : (hostAct a s).state.Inv := by
  cases a with
  | load p => exact load_inv p
  | loadText x =>
    rcases hostAct_loadText_cases x s with ⟨p, -, hact⟩ | ⟨r, -, hact⟩
    · rw [hact]; exact load_inv p
    · rw [hact]; exact hs
  | step => exact requestStep_keeps hs fun t ht => stepKeepsMachineInvariant s t hs ht
  | setInput pin value =>
    rcases hostAct_setInput_cases pin value s with ⟨hpin, -, -, hact⟩ | ⟨-, r, hact⟩
    · rw [hact]; exact setIn_inv hs hpin _
    · rw [hact]; exact hs
  | readOutputs => exact hs

/-- Settles O47, by induction on the actions with `hostAct_keeps_inv`. -/
theorem hostActionsKeepMachineInvariant : Obligations.HostActionsKeepMachineInvariant :=
  fun _ _ hs => hostRun_keeps (fun a _ _ => hostAct_keeps_inv a) hs

/-- Every action of the host but a load keeps the program (spec 20_memory.md R40). -/
theorem hostAct_prog {a : HostAction} (ha : ∀ p t, a ≠ .load p ∧ a ≠ .loadText t) (s : State) :
    (hostAct a s).state.prog = s.prog := by
  cases a with
  | load p => exact absurd rfl (ha p []).1
  | loadText t => exact absurd rfl (ha [] t).2
  | step => exact requestStep_keeps (P := fun u => u.prog = s.prog) rfl fun t ht => (step_prog_inp ht).1
  | setInput pin value =>
    rcases hostAct_setInput_cases pin value s with ⟨-, -, -, hact⟩ | ⟨-, r, hact⟩ <;> rw [hact] <;> rfl
  | readOutputs => rfl

/-- Settles O51: each action keeps the program, so the run does. -/
theorem programChangesOnlyByLoad : Obligations.ProgramChangesOnlyByLoad :=
  fun _ s hactions => hostRun_keeps (P := fun u => u.prog = s.prog)
    (fun a ha u hu => (hostAct_prog (hactions a ha) u).trans hu) rfl

/-- Any number of step requests leaves the input pins as they are (spec 20_memory.md R42, R44). -/
theorem hostRun_steps_inp (n : Nat) (s : State) : (hostRun (List.replicate n .step) s).inp = s.inp := by
  refine hostRun_keeps (P := fun u => u.inp = s.inp) (fun a ha u hu => ?_) rfl
  obtain rfl := List.eq_of_mem_replicate ha
  exact requestStep_keeps (P := fun v => v.inp = s.inp) hu fun t ht => (step_prog_inp ht).2.trans hu

/-- Settles O50: the assignment is accepted, the steps leave the pin, and LD shows it. -/
theorem assignedInputIsLatchedAndLoaded : Obligations.AssignedInputIsLatchedAndLoaded := by
  intro d b n s hd
  have hgap : d ≠ 0x8#4 := by rintro rfl; exact absurd hd (by decide)
  refine ⟨_, (exec_ld d _).trans (loadLogic_of_ne_gap _ hgap _), ?_⟩
  rcases hostAct_setInput_cases d.toNat (if b then 1 else 0) s with ⟨-, -, -, hact⟩ | ⟨hdomain, -⟩
  · change selectedBit d (hostRun (List.replicate n .step) (hostAct _ s).state) = b
    rw [selectedBit_of_lt hd, hostRun_steps_inp, hact, accepted_state, State.setIn_inp,
      Memory.readBit_writeBit_same]
    cases b <;> rfl
  · cases b <;> simp at hdomain <;> omega

/-! ### Load and the outputs -/

/-- Settles O44: the fields of the reset state, with the program put in. -/
theorem loadGivesResetState : Obligations.LoadGivesResetState := by
  intro p s
  refine ⟨load p, rfl, rfl, rfl, rfl, rfl, rfl, rfl, fun a ha _ => ⟨rfl, ?_, rfl⟩, rfl, ?_⟩
  · have hne : 0 ≠ a := by omega
    simp [load, State.reset, Memory.readBit, Memory.read, hne]
  · rintro rfl
    rfl

/-- The shown cells of an array are those of index 1 to 7 with their bits (spec 70_reset_and_hazards.md R128). -/
theorem mem_storedCells (m : Memory) (a : Nat) (b : Bit) :
    (a, b) ∈ storedCells m ↔ 1 ≤ a ∧ a ≤ 7 ∧ b = m.readBit a := by
  have hindex : a ∈ [1, 2, 3, 4, 5, 6, 7] ↔ 1 ≤ a ∧ a ≤ 7 := by
    simp only [List.mem_cons, List.not_mem_nil, or_false]; omega
  have hpair : (∃ x ∈ [1, 2, 3, 4, 5, 6, 7], (x, m.readBit x) = (a, b)) ↔
      a ∈ [1, 2, 3, 4, 5, 6, 7] ∧ b = m.readBit a := by
    constructor
    · rintro ⟨x, hx, ⟨⟩⟩
      exact ⟨hx, rfl⟩
    · rintro ⟨ha, rfl⟩
      exact ⟨a, ha, rfl⟩
  rw [storedCells, List.mem_map, hpair, hindex, and_assoc]

/-- A register is shown with a value exactly when it is written and holds that value (spec 70_reset_and_hazards.md
R128). -/
theorem dump_eq_some_iff (written : Bool) (held v : Nibble) :
    (if written then some held else none) = some v ↔ written = true ∧ v = held := by
  cases written with
  | false => simp
  | true => simpa using eq_comm

/-- Settles O49: the snapshot is made of the shown cells, `RR` and the enable registers written so far. -/
theorem readOutputsIsPure : Obligations.ReadOutputsIsPure := by
  intro s
  exact ⟨readOutputs s, rfl, rfl, mem_storedCells s.out, mem_storedCells s.ram, rfl,
    dump_eq_some_iff s.ienWritten s.ien, dump_eq_some_iff s.oenWritten s.oen⟩

end Sys2Proof.Machine

/-! PROOF. The control table (spec 30_encoding.md R57), and what an instruction does not read (spec 10_state.md sections
4 and 7): a row that reads drives the common part of load and logic, a row that writes the common part of the stores;
and what an instruction does to a state with other output pins, or with another `RR`, is the same update. -/

namespace Sys2Proof.Machine

/-! ### The datapath, by the columns of its row -/

section
variable (d : Nibble) (s : State)

/-- A row of the read column is the common part of load and logic with the ALU's function. -/
theorem datapath_of_read (complement : Bool) (f : AluFunction) :
    datapath { readComplement := some complement, alu := f } d s =
      loadLogic (fun rr sel => f.result rr (sel ^^ complement)) d s := by
  simp only [datapath, datapathRead, loadLogic]
  cases memRead d s <;> rfl

/-- A row that writes `RR` to the data space is the common part of the stores with `RR`. -/
theorem datapath_of_store_rr : datapath { store := some .rr } d s = storeBit d s.rr s := by
  simp only [datapath, datapathRead, datapathStore, storeBit]
  cases memWrite d s.rr s <;> rfl

/-- A row that writes `~RR` to the data space is the common part of the stores with `~RR`. -/
theorem datapath_of_store_notRR : datapath { store := some .notRR } d s = storeBit d (bitNot s.rr) s := by
  simp only [datapath, datapathRead, datapathStore, storeBit]
  cases memWrite d (bitNot s.rr) s <;> rfl

/-- A load or logic instruction does what its row does when its bit function is the row's. -/
theorem exec_eq_datapath_of_read {i : Instr} {alu : Bit → Bit → Bit} {complement : Bool} {f : AluFunction} {d : Nibble}
    {s : State} (hexec : exec i s = loadLogic alu d s)
    (halu : ∀ rr sel, alu rr sel = f.result rr (sel ^^ complement)) :
    exec i s = datapath { readComplement := some complement, alu := f } d s := by
  obtain rfl : alu = fun rr sel => f.result rr (sel ^^ complement) := funext₂ halu
  exact hexec.trans (datapath_of_read d s complement f).symm

end

/-- Settles O39, row by row. -/
theorem controlTableDrivesEveryInstruction : Obligations.ControlTableDrivesEveryInstruction := by
  intro i s
  cases i with
  | nop d | nopf d | rtn d | ien d | oen d | jmp d => rfl
  | skz d =>
    have hskip : s.pc + (if skipsOnZero s.rr then 2 else 1) = if s.rr = false then s.pc + 2 else s.pc + 1 := by
      cases s.rr <;> rfl
    rw [exec_skz, advance, hskip]
    rfl
  | ld d => exact exec_eq_datapath_of_read (f := .passX) (complement := false) (exec_ld d s) (by decide)
  | ldc d => exact exec_eq_datapath_of_read (f := .passX) (complement := true) (exec_ldc d s) (by decide)
  | and d => exact exec_eq_datapath_of_read (f := .andX) (complement := false) (exec_and d s) (by decide)
  | andc d => exact exec_eq_datapath_of_read (f := .andX) (complement := true) (exec_andc d s) (by decide)
  | or d => exact exec_eq_datapath_of_read (f := .orX) (complement := false) (exec_or d s) (by decide)
  | orc d => exact exec_eq_datapath_of_read (f := .orX) (complement := true) (exec_orc d s) (by decide)
  | xnor d => exact exec_eq_datapath_of_read (f := .xnorX) (complement := false) (exec_xnor d s) (by decide)
  | sto d => exact (datapath_of_store_rr d s).symm
  | stoc d => exact (datapath_of_store_notRR d s).symm

/-! ### The output pins are not read -/

/-- The state with other output pins. -/
def State.withOut (s : State) (o : Memory) : State := { s with out := o }

/-- What an instruction does to a state whatever its output pins hold. -/
inductive BlindToOutputs (i : Instr) (s : State) : Prop where
  /-- The output pins stay as they are, and the rest becomes that of `t`. -/
  | keeps (t : State) (hout : t.out = s.out) (hexec : ∀ o, exec i (s.withOut o) = .next (t.withOut o))
  /-- The same pin takes the same bit, and nothing else but `pc` changes. -/
  | writes (a : Nat) (b : Bit)
      (hexec : ∀ o, exec i (s.withOut o) = .next (((s.withOut o).setOut a b).setPc (s.pc + 1)))

theorem blindToOutputs_of_loadLogic {i : Instr} {alu : Bit → Bit → Bit} {d : Nibble}
    (hexec : ∀ u, exec i u = loadLogic alu d u) (s : State) : BlindToOutputs i s := by
  by_cases hd : d = 0x8#4
  · subst hd
    exact .keeps (s.setFault _) rfl fun o => (hexec _).trans (loadLogic_gap alu (s.withOut o))
  · exact .keeps { s with rr := alu s.rr (selectedBit d s), pc := s.pc + 1 } rfl
      fun o => (hexec _).trans (loadLogic_of_ne_gap alu hd (s.withOut o))

theorem blindToOutputs_of_storeBit {i : Instr} {value : Bit → Bit} {d : Nibble}
    (hexec : ∀ u, exec i u = storeBit d (value u.rr) u) (s : State) : BlindToOutputs i s := by
  rcases storeBit_cases d (value s.rr) s with ⟨hgap, -⟩ | ⟨hram, -⟩ | ⟨hpos, hpin, -⟩
  · exact .keeps (s.setFault _) rfl fun o => (hexec _).trans (storeBit_gap hgap _ (s.withOut o))
  · exact .keeps ((s.setRam (d.toNat - 8) (value s.rr)).setPc (s.pc + 1)) rfl
      fun o => (hexec _).trans (storeBit_of_gt hram _ (s.withOut o))
  · exact .writes d.toNat (value s.rr) fun o => (hexec _).trans (storeBit_of_lt hpos hpin _ (s.withOut o))

theorem blindToOutputs_jmp (d : Nibble) (s : State) : BlindToOutputs (.jmp d) s := by
  rcases lt_or_ge (branchTarget s.pc d) 0 with hneg | hnonneg
  · exact .keeps (s.setFault (.pcUnderflow (branchTarget s.pc d))) rfl
      fun o => exec_jmp_of_target_neg (s := s.withOut o) hneg
  · exact .keeps (s.setPc (branchTarget s.pc d).toNat) rfl
      fun o => exec_jmp_of_target_nonneg (s := s.withOut o) hnonneg

/-- Every instruction is blind to the output pins (spec 10_state.md R18). -/
theorem exec_blindToOutputs (i : Instr) (s : State) : BlindToOutputs i s := by
  cases i with
  | nop d => exact .keeps (s.setPc (s.pc + 1)) rfl fun o => exec_nop d (s.withOut o)
  | nopf d => exact .keeps (s.setPc (s.pc + 1)) rfl fun o => exec_nopf d (s.withOut o)
  | rtn d => exact .keeps (s.setPc (s.pc + 2)) rfl fun o => exec_rtn d (s.withOut o)
  | skz d => exact .keeps (s.setPc (s.pc + if skipsOnZero s.rr then 2 else 1)) rfl fun o => exec_skz d (s.withOut o)
  | ien d => exact .keeps ((s.setIen d).setPc (s.pc + 1)) rfl fun o => exec_ien d (s.withOut o)
  | oen d => exact .keeps ((s.setOen d).setPc (s.pc + 1)) rfl fun o => exec_oen d (s.withOut o)
  | jmp d => exact blindToOutputs_jmp d s
  | ld d => exact blindToOutputs_of_loadLogic (exec_ld d) s
  | ldc d => exact blindToOutputs_of_loadLogic (exec_ldc d) s
  | and d => exact blindToOutputs_of_loadLogic (exec_and d) s
  | andc d => exact blindToOutputs_of_loadLogic (exec_andc d) s
  | or d => exact blindToOutputs_of_loadLogic (exec_or d) s
  | orc d => exact blindToOutputs_of_loadLogic (exec_orc d) s
  | xnor d => exact blindToOutputs_of_loadLogic (exec_xnor d) s
  | sto d => exact blindToOutputs_of_storeBit (value := id) (exec_sto d) s
  | stoc d => exact blindToOutputs_of_storeBit (exec_stoc d) s

/-- The written cell reads the byte of the written bit. -/
@[simp] theorem Memory.read_writeBit_same (m : Memory) (a : Nat) (b : Bit) : (m.writeBit a b).read a = bitByte b :=
  Memory.read_write_same m a (bitByte b)

/-- Settles O38: the instruction is run with the state's own output pins and with the others. -/
theorem outputPinsAreNeverRead : Obligations.OutputPinsAreNeverRead := by
  intro i s t o ht
  cases exec_blindToOutputs i s with
  | keeps u hout hexec =>
    obtain rfl : u.withOut s.out = t := Host.Outcome.next.inj ((hexec s.out).symm.trans ht)
    exact ⟨_, hexec o, rfl, fun a ha => absurd rfl ha⟩
  | writes a b hexec =>
    obtain rfl : (s.setOut a b).setPc (s.pc + 1) = t := Host.Outcome.next.inj ((hexec s.out).symm.trans ht)
    refine ⟨_, hexec o, rfl, fun a' ha' => ?_⟩
    obtain rfl : a' = a := by
      by_contra hne
      exact ha' (Memory.read_writeBit_other s.out b hne)
    exact (Memory.read_writeBit_same _ _ _).trans (Memory.read_writeBit_same _ _ _).symm

/-! ### `RR` is read only by the instructions that list it -/

/-- What an instruction does to a state whatever `RR` holds. -/
inductive BlindToAccumulator (i : Instr) (s : State) : Prop where
  /-- `RR` stays as it is, and the rest becomes that of `t`; LD and LDC do this at the gap alone. -/
  | keeps (t : State) (hgap : i.opcode ∈ [0x1#4, 0x2#4] → i.operand = 0x8#4)
      (hexec : ∀ b, exec i (s.setRR b) = .next (t.setRR b))
  /-- `RR` is overwritten with the same value. -/
  | overwrites (hexec : ∀ b, exec i (s.setRR b) = exec i s)

theorem blindToAccumulator_of_load {i : Instr} {g : Bit → Bit}
    (hexec : ∀ u, exec i u = loadLogic (fun _ sel => g sel) i.operand u) (s : State) : BlindToAccumulator i s := by
  by_cases hd : i.operand = 0x8#4
  · rw [hd] at hexec
    exact .keeps (s.setFault _) (fun _ => hd) fun b => (hexec _).trans (loadLogic_gap _ (s.setRR b))
  · have hnext := fun u => (hexec u).trans (loadLogic_of_ne_gap (fun _ sel => g sel) hd u)
    exact .overwrites fun b => (hnext (s.setRR b)).trans (hnext s).symm

theorem blindToAccumulator_jmp (d : Nibble) (s : State) : BlindToAccumulator (.jmp d) s := by
  rcases lt_or_ge (branchTarget s.pc d) 0 with hneg | hnonneg
  · exact .keeps (s.setFault (.pcUnderflow (branchTarget s.pc d))) (by simp [Instr.opcode])
      fun b => exec_jmp_of_target_neg (s := s.setRR b) hneg
  · exact .keeps (s.setPc (branchTarget s.pc d).toNat) (by simp [Instr.opcode])
      fun b => exec_jmp_of_target_nonneg (s := s.setRR b) hnonneg

/-- NOP, NOPF, LD, LDC, IEN, OEN, JMP and RTN are blind to `RR` (spec 10_state.md R10). -/
theorem exec_blindToAccumulator {i : Instr}
    (hop : i.opcode ∈ [0x0#4, 0x1#4, 0x2#4, 0xA#4, 0xB#4, 0xC#4, 0xD#4, 0xF#4]) (s : State) :
    BlindToAccumulator i s := by
  cases i with
  | nop d => exact .keeps (s.setPc (s.pc + 1)) (by simp [Instr.opcode]) fun b => exec_nop d (s.setRR b)
  | nopf d => exact .keeps (s.setPc (s.pc + 1)) (by simp [Instr.opcode]) fun b => exec_nopf d (s.setRR b)
  | rtn d => exact .keeps (s.setPc (s.pc + 2)) (by simp [Instr.opcode]) fun b => exec_rtn d (s.setRR b)
  | ien d => exact .keeps ((s.setIen d).setPc (s.pc + 1)) (by simp [Instr.opcode]) fun b => exec_ien d (s.setRR b)
  | oen d => exact .keeps ((s.setOen d).setPc (s.pc + 1)) (by simp [Instr.opcode]) fun b => exec_oen d (s.setRR b)
  | jmp d => exact blindToAccumulator_jmp d s
  | ld d => exact blindToAccumulator_of_load (g := id) (exec_ld d) s
  | ldc d => exact blindToAccumulator_of_load (exec_ldc d) s
  | and | andc | or | orc | xnor | sto | stoc | skz => simp [Instr.opcode] at hop

/-- Settles O37: the instruction is run with the state's own `RR` and with the other. -/
theorem accumulatorReadOnlyByItsReaders : Obligations.AccumulatorReadOnlyByItsReaders := by
  intro i s t b hop ht
  cases exec_blindToAccumulator hop s with
  | keeps u hgap hexec =>
    obtain rfl : u.setRR s.rr = t := Host.Outcome.next.inj ((hexec s.rr).symm.trans ht)
    exact ⟨_, hexec b, rfl, fun hload hd => absurd (hgap hload) hd⟩
  | overwrites hexec => exact ⟨t, (hexec b).trans ht, rfl, fun _ _ => rfl⟩

end Sys2Proof.Machine

/-! PROOF. Program text (spec 30_encoding.md R56): the digits of a nibble are read back in either case, exactly 22
characters are digits, and a text of them in pairs is a program's. -/

namespace Sys2Proof.Machine

/-! ### Hexadecimal digits -/

/-- The digit of a nibble is read back, in either case (spec 30_encoding.md R56, D14). -/
theorem hexDigit_digitChar (v : Nibble) :
    hexDigit (digitChar v) = some v ∧ hexDigit (digitChar v).toLower = some v := by
  revert v; decide

/-- The characters that are hexadecimal digits, by their code points. -/
theorem isSome_hexDigit_iff (c : Char) :
    (hexDigit c).isSome = true ↔
      48 ≤ c.toNat ∧ c.toNat ≤ 57 ∨ 65 ≤ c.toNat ∧ c.toNat ≤ 70 ∨ 97 ≤ c.toNat ∧ c.toNat ≤ 102 := by
  simp only [hexDigit]
  split_ifs <;> simp <;> omega

/-- The characters that are hexadecimal digits, written out (spec 30_encoding.md R56). -/
theorem isSome_hexDigit_iff_mem (c : Char) :
    (hexDigit c).isSome = true ↔ c ∈ "0123456789ABCDEFabcdef".toList := by
  have hpoint : ∀ x : Char, c = x ↔ c.toNat = x.toNat := fun x => Char.toNat_inj.symm
  rw [isSome_hexDigit_iff]
  simp [hpoint]
  omega

/-! ### Texts that parse -/

/-- A text has no first bad digit exactly when all its characters are digits. -/
theorem firstBadDigit_eq_none_iff (t : Text) :
    firstBadDigit t = none ↔ ∀ c ∈ t, (hexDigit c).isSome = true := by
  induction t with
  | nil => simp [firstBadDigit]
  | cons c rest ih =>
    cases hc : hexDigit c with
    | none => simp [firstBadDigit, hc]
    | some v => simp [firstBadDigit, hc, ih]

/-- Two digits in front of a text are one more word in front of its words (spec 30_encoding.md R56). -/
theorem pairWords_cons_cons {a b : Char} {op d : Nibble} (ha : hexDigit a = some op) (hb : hexDigit b = some d)
    (rest : Text) : pairWords (a :: b :: rest) = (pairWords rest).map (packWord op d :: ·) := by
  cases hrest : pairWords rest <;> simp [pairWords, ha, hb, hrest]

/-- A text of digits is cut into words exactly when its length is even. -/
theorem isSome_pairWords_iff {t : Text} (h : ∀ c ∈ t, (hexDigit c).isSome = true) :
    (pairWords t).isSome = true ↔ t.length % 2 = 0 := by
  induction t using List.twoStepInduction with
  | nil => simp [pairWords]
  | singleton c => simp [pairWords]
  | cons_cons a b rest ih _ =>
    simp only [List.forall_mem_cons] at h
    obtain ⟨ha, hb, hrest⟩ := h
    obtain ⟨op, hop⟩ := Option.isSome_iff_exists.mp ha
    obtain ⟨d, hd⟩ := Option.isSome_iff_exists.mp hb
    rw [pairWords_cons_cons hop hd, Option.isSome_map, ih hrest, List.length_cons, List.length_cons]
    omega

/-- A text parses exactly when it is made of digits and cut into words (spec 30_encoding.md R56). -/
theorem parseProgram_ok_iff (t : Text) (p : List Word) :
    parseProgram t = .ok p ↔ (∀ c ∈ t, (hexDigit c).isSome = true) ∧ pairWords t = some p := by
  rw [← firstBadDigit_eq_none_iff, parseProgram]
  cases firstBadDigit t <;> cases pairWords t <;> simp

/-- Settles O53: a text of digits in pairs, and no other, parses; a refusal leaves the state. -/
theorem malformedTextLoadsNothing : Obligations.MalformedTextLoadsNothing := by
  intro t s
  refine ⟨?_, fun hrefused => ?_⟩
  · simp only [← isSome_hexDigit_iff_mem, parseProgram_ok_iff, exists_and_left, ← Option.isSome_iff_exists]
    rw [and_comm]
    exact and_congr_left isSome_pairWords_iff
  · rcases hostAct_loadText_cases t s with ⟨p, hp, -⟩ | ⟨r, -, hact⟩
    · exact absurd hp (hrefused p)
    · rw [hact]
      exact ⟨rfl, Option.some_ne_none r⟩

/-! ### The text of a program -/

/-- The text of a program with its digits rewritten by `f` parses to the program, when `f` keeps what a digit stands
for. -/
theorem parseProgram_map_programText {f : Char → Char} (hf : ∀ v, hexDigit (f (digitChar v)) = some v)
    (p : List Word) : parseProgram ((programText p).map f) = .ok p := by
  rw [parseProgram_ok_iff]
  induction p with
  | nil => simp [programText, pairWords]
  | cons w rest ih =>
    obtain ⟨hdigits, hpairs⟩ := ih
    simp only [programText, wordText, List.cons_append, List.nil_append, List.map_cons, List.forall_mem_cons]
    refine ⟨⟨by simp [hf], by simp [hf], hdigits⟩, ?_⟩
    rw [pairWords_cons_cons (hf _) (hf _), hpairs, packWord_fields, Option.map_some]

/-- The text of a program has two digits per word (spec 30_encoding.md R56). -/
theorem length_programText (p : List Word) : (programText p).length = 2 * p.length := by
  induction p with
  | nil => rfl
  | cons w rest ih => simp [programText, wordText, ih]; omega

/-- Settles O52: each word's two digits are read back, in either case. -/
theorem programTextRoundTrip : Obligations.ProgramTextRoundTrip := by
  intro p
  have hupper := parseProgram_map_programText (f := id) (fun v => (hexDigit_digitChar v).1) p
  have hlower := parseProgram_map_programText (fun v => (hexDigit_digitChar v).2) p
  rw [List.map_id] at hupper
  exact ⟨length_programText p, loadText_of_ok hupper, loadText_of_ok hlower⟩

end Sys2Proof.Machine

/-! PROOF. The macro engine (spec 30_encoding.md R61, R66 to R70) and the reading of a source text (R58): what a specifier
resolves to, what a line of a macro gives, why an expansion without reference cycles ends well, and the cutting of a text
into lines and tokens. -/

namespace Sys2Proof.Machine

/-! ### Specifiers -/

section
variable {actuals : List Nibble} {k : Nat}

/-- A back-reference to an actual argument is that argument (spec 30_encoding.md R67). -/
theorem resolveSpec_backReference {v : Nibble} (hk : 1 ≤ k) (h : actuals[k - 1]? = some v) :
    resolveSpec (-(k : Int)) actuals = .ok v := by
  have hneg : ¬ 0 ≤ -(k : Int) := by omega
  rw [resolveSpec, if_neg hneg, neg_neg, Int.toNat_natCast, h]

/-- A back-reference beyond the actual arguments fails (spec 30_encoding.md R67, D21). -/
theorem resolveSpec_backReference_beyond (hk : actuals.length < k) :
    resolveSpec (-(k : Int)) actuals = .error .tooFewArguments := by
  have hneg : ¬ 0 ≤ -(k : Int) := by omega
  have hnone : actuals[k - 1]? = none := List.getElem?_eq_none (by omega)
  rw [resolveSpec, if_neg hneg, neg_neg, Int.toNat_natCast, hnone]

/-- A literal 0 to 15 is itself (spec 30_encoding.md R68). -/
theorem resolveSpec_literal (hk : k ≤ 15) : resolveSpec k actuals = .ok (BitVec.ofNat 4 k) := by
  have h15 : (k : Int) ≤ 15 := by omega
  simp [resolveSpec, h15]

end

/-- Settles O59: a back-reference succeeds with the actual argument it names, or there is none. -/
theorem specifiersResolve : Obligations.SpecifiersResolve := by
  refine fun actuals k => ⟨fun v hk => ⟨fun h => ?_, resolveSpec_backReference hk⟩,
    resolveSpec_backReference_beyond, resolveSpec_literal⟩
  rcases resolveSpec_ok h with ⟨hnonneg, -, -⟩ | ⟨-, hv⟩
  · omega
  · simpa using hv

/-- A specifier in range of the actual arguments resolves (spec 30_encoding.md R67, R68). -/
theorem exists_resolveSpec_of_inRange {n : Nat} {z : Int} {actuals : List Nibble} (hz : specInRange n z)
    (hn : n ≤ actuals.length) : ∃ v, resolveSpec z actuals = .ok v := by
  rcases hz with ⟨h0, h15⟩ | ⟨hneg, hle⟩
  · obtain ⟨k, rfl⟩ := Int.eq_ofNat_of_zero_le h0
    exact ⟨_, resolveSpec_literal (by omega)⟩
  · obtain ⟨k, rfl⟩ := Int.exists_eq_neg_ofNat hneg.le
    have hk : k - 1 < actuals.length := by omega
    exact ⟨_, resolveSpec_backReference (by omega) (List.getElem?_eq_getElem hk)⟩

/-- Specifiers in range of the actual arguments resolve together. -/
theorem exists_resolveSpecs_of_inRange {n : Nat} {zs : List Int} {actuals : List Nibble}
    (hzs : ∀ z ∈ zs, specInRange n z) (hn : n ≤ actuals.length) : ∃ vs, resolveSpecs zs actuals = .ok vs := by
  induction zs with
  | nil => exact ⟨[], rfl⟩
  | cons z rest ih =>
    obtain ⟨hz, hrest⟩ := List.forall_mem_cons.mp hzs
    obtain ⟨v, hv⟩ := exists_resolveSpec_of_inRange hz hn
    obtain ⟨vs, hvs⟩ := ih hrest
    exact ⟨v :: vs, by simp [resolveSpecs, hv, hvs]⟩

/-- The specifiers of a step fail only with `BadOperand` or `TooFewArguments`. -/
theorem resolveSpecs_error {zs : List Int} {actuals : List Nibble} {e : AsmError}
    (h : resolveSpecs zs actuals = .error e) : e = .badOperand ∨ e = .tooFewArguments := by
  induction zs with
  | nil => cases h
  | cons z rest ih =>
    unfold resolveSpecs at h
    split at h
    next e' he =>
      cases h
      exact resolveSpec_error he
    next v hv =>
      split at h
      next e' he =>
        cases h
        exact ih he
      next => cases h

/-! ### Expansion without reference cycles -/

/-- A step with a basic target does not exceed the depth limit. -/
theorem expandBasicStep_ne_depthExceeded (op : Nibble) (m : MacroStep) (actuals : List Nibble) :
    expandBasicStep op m actuals ≠ .error .macroDepthExceeded := by
  intro h
  unfold expandBasicStep at h
  split at h
  · split at h <;> cases h
  · split at h
    · cases h
    next e he =>
      cases h
      rcases resolveSpec_error he with h | h <;> cases h
  · cases h

section
variable {table : MacroTable} {child : Text → List Nibble → Except AsmError (List Pair)}

/-- A step exceeds the depth limit only in the expansion of a macro it names (spec 30_encoding.md R70). -/
theorem expandStep_depthExceeded {m : MacroStep} {actuals : List Nibble}
    (h : expandStep table child m actuals = .error .macroDepthExceeded) :
    basicOpcode m.target = none ∧ table.lookup m.target ≠ none ∧
      ∃ childActuals, child m.target childActuals = .error .macroDepthExceeded := by
  unfold expandStep at h
  split at h
  next op hop => exact absurd h (expandBasicStep_ne_depthExceeded op m actuals)
  next hbasic =>
    split at h
    · cases h
    next steps hsteps =>
      split at h
      next e he =>
        cases h
        rcases resolveSpecs_error he with h | h <;> cases h
      next childActuals _ => exact ⟨hbasic, by simp [hsteps], childActuals, h⟩

/-- The steps of an expansion fail with the error of one of them. -/
theorem expandSteps_error {steps : List MacroStep} {actuals : List Nibble} {e : AsmError}
    (h : expandSteps table child steps actuals = .error e) :
    ∃ m ∈ steps, expandStep table child m actuals = .error e := by
  induction steps with
  | nil => cases h
  | cons m rest ih =>
    unfold expandSteps at h
    split at h
    next e' he =>
      cases h
      exact ⟨m, List.mem_cons_self, he⟩
    next =>
      split at h
      next e' he =>
        cases h
        obtain ⟨m', hm', he'⟩ := ih he
        exact ⟨m', List.mem_cons_of_mem m hm', he'⟩
      next => cases h

/-- The steps of an expansion succeed when each of them does. -/
theorem exists_expandSteps {steps : List MacroStep} {actuals : List Nibble}
    (h : ∀ m ∈ steps, ∃ pairs, expandStep table child m actuals = .ok pairs) :
    ∃ pairs, expandSteps table child steps actuals = .ok pairs := by
  cases hresult : expandSteps table child steps actuals with
  | ok pairs => exact ⟨pairs, rfl⟩
  | error e =>
    obtain ⟨m, hm, he⟩ := expandSteps_error hresult
    obtain ⟨pairs, hpairs⟩ := h m hm
    cases he.symm.trans hpairs

/-- A step with a basic target succeeds when it has one specifier that resolves, or none and a default operand (spec
30_encoding.md R66, R69). -/
theorem exists_expandBasicStep {op : Nibble} {n : Nat} {m : MacroStep} {actuals : List Nibble}
    (hspecs : ∀ z ∈ m.specs, specInRange n z) (hn : n ≤ actuals.length)
    (hshape : m.specs.length = 1 ∨ m.specs = [] ∧ bareDefault m.target ≠ none) :
    ∃ pairs, expandBasicStep op m actuals = .ok pairs := by
  rcases hshape with hone | ⟨hnil, hdefault⟩
  · obtain ⟨z, hz⟩ := List.length_eq_one_iff.mp hone
    obtain ⟨v, hv⟩ := exists_resolveSpec_of_inRange (hspecs z (by simp [hz])) hn
    exact ⟨[(op, v)], by simp [expandBasicStep, hz, hv]⟩
  · obtain ⟨v, hv⟩ := Option.ne_none_iff_exists'.mp hdefault
    exact ⟨[(op, v)], by simp [expandBasicStep, hnil, hv]⟩

/-- A well-referenced step succeeds when the macro it may name does, given enough arguments. -/
theorem exists_expandStep {arity : Text → Nat} {n : Nat} {m : MacroStep} {actuals : List Nibble}
    (hm : m.wellReferenced table arity n) (hn : n ≤ actuals.length)
    (hchild : basicOpcode m.target = none → table.lookup m.target ≠ none → ∀ childActuals : List Nibble,
      arity m.target ≤ childActuals.length → ∃ pairs, child m.target childActuals = .ok pairs) :
    ∃ pairs, expandStep table child m actuals = .ok pairs := by
  obtain ⟨hspecs, ⟨hbasic, hshape⟩ | ⟨hbasic, hlookup, harity⟩⟩ := hm
  · obtain ⟨op, hop⟩ := Option.ne_none_iff_exists'.mp hbasic
    obtain ⟨pairs, hpairs⟩ := exists_expandBasicStep (op := op) hspecs hn hshape
    exact ⟨pairs, by simp [expandStep, hop, hpairs]⟩
  · obtain ⟨steps, hsteps⟩ := Option.ne_none_iff_exists'.mp hlookup
    obtain ⟨vs, hvs⟩ := exists_resolveSpecs_of_inRange hspecs hn
    obtain ⟨pairs, hpairs⟩ := hchild hbasic hlookup vs (by rw [resolveSpecs_length hvs]; exact harity)
    exact ⟨pairs, by simp [expandStep, hbasic, hsteps, hvs, hpairs]⟩

/-- The expansion of a macro of the table is that of its steps, one level deeper (spec 30_encoding.md R66). -/
theorem expandMacro_succ {name : Text} {steps : List MacroStep} (h : table.lookup name = some steps) (depth : Nat)
    (actuals : List Nibble) :
    expandMacro table (depth + 1) name actuals = expandSteps table (expandMacro table depth) steps actuals := by
  simp [expandMacro, h]

end

section
variable {table : MacroTable} {rank : Text → Nat}
  (hrank : ∀ name steps, table.lookup name = some steps → ∀ m ∈ steps, basicOpcode m.target = none →
    table.lookup m.target ≠ none → rank m.target < rank name)
include hrank

/-- Where the rank falls along every reference, no expansion exceeds a depth limit above the rank (spec 30_encoding.md
R70, D19). -/
theorem expandMacro_ne_depthExceeded {depth : Nat} {name : Text} (hdepth : rank name < depth)
    (actuals : List Nibble) : expandMacro table depth name actuals ≠ .error .macroDepthExceeded := by
  induction depth generalizing name actuals with
  | zero => omega
  | succ depth ih =>
    cases hlookup : table.lookup name with
    | none => simp [expandMacro, hlookup]
    | some steps =>
      rw [expandMacro_succ hlookup]
      intro h
      obtain ⟨m, hm, hstep⟩ := expandSteps_error h
      obtain ⟨hbasic, htarget, childActuals, hchild⟩ := expandStep_depthExceeded hstep
      have hfalls := hrank name steps hlookup m hm hbasic htarget
      exact ih (by omega) childActuals hchild

/-- Where the rank falls along every reference and every step is well-referenced, the expansion of a macro with enough
arguments succeeds at a depth limit above the rank (spec 30_encoding.md R66 to R70). -/
theorem exists_expandMacro {arity : Text → Nat}
    (hwell : ∀ other steps, table.lookup other = some steps →
      ∀ m ∈ steps, m.wellReferenced table arity (arity other))
    {depth : Nat} {name : Text} {actuals : List Nibble} (hdepth : rank name < depth)
    (hname : table.lookup name ≠ none) (harity : arity name ≤ actuals.length) :
    ∃ pairs, expandMacro table depth name actuals = .ok pairs := by
  induction depth generalizing name actuals with
  | zero => omega
  | succ depth ih =>
    obtain ⟨steps, hsteps⟩ := Option.ne_none_iff_exists'.mp hname
    rw [expandMacro_succ hsteps]
    refine exists_expandSteps fun m hm => exists_expandStep (hwell name steps hsteps m hm) harity ?_
    intro hbasic htarget childActuals hchild
    have hfalls := hrank name steps hsteps m hm hbasic htarget
    exact ih (by omega) htarget hchild

end

/-- Settles O56: the depth limit and the success by induction on the limit, the opcodes from every expansion's. -/
theorem acyclicMacrosExpand : Obligations.AcyclicMacrosExpand := by
  intro table rank hrank depth name actuals hdepth
  exact ⟨expandMacro_ne_depthExceeded hrank hdepth actuals, fun _ h => expandMacro_fromMnemonics h,
    fun arity hwell hname harity => exists_expandMacro hrank hwell hdepth hname harity⟩

/-! ### A line of a macro -/

/-- A table is accepted exactly when no literal of it is above 15 (spec 30_encoding.md R68). -/
theorem macroTableOk_iff (table : MacroTable) :
    macroTableOk table = true ↔ ∀ entry ∈ table, ∀ m ∈ entry.2, ∀ z ∈ m.specs, z ≤ 15 := by
  simp [macroTableOk, specOk]

/-- A token that is no single digit has no digit value (spec 30_encoding.md R62). -/
theorem digitToken_eq_none {token : Text} (h : ∀ c ∈ "0123456789ABCDEFabcdef".toList, token ≠ [c]) :
    digitToken token = none := by
  match token with
  | [] => rfl
  | [c] =>
    have hc : c ∉ "0123456789ABCDEFabcdef".toList := fun hmem => h c hmem rfl
    rw [← isSome_hexDigit_iff_mem] at hc
    simpa [digitToken] using hc
  | _ :: _ :: _ => rfl

section
variable (cfg : AsmConfig) (name : Text) {token : Text}

theorem assembleInvocation_of_two_le {args : List Text} (h : 2 ≤ args.length) :
    assembleInvocation cfg name args = .error .tooManyArguments := by
  match args with
  | [] => simp at h
  | [_] => simp at h
  | _ :: _ :: _ => rfl

theorem assembleInvocation_of_digit {v : Nibble} (h : digitToken token = some v) :
    assembleInvocation cfg name [token] = invokeMacro cfg name [v] := by
  simp [assembleInvocation, h]

theorem assembleInvocation_of_no_digit (h : digitToken token = none) :
    assembleInvocation cfg name [token] = .error .badOperand := by
  simp [assembleInvocation, h]

/-- Under a table with a literal above 15 a line with one argument fails, whatever the argument (spec 30_encoding.md R68,
D17). -/
theorem assembleInvocation_of_bad_table (token : Text) (h : macroTableOk cfg.macros ≠ true) :
    assembleInvocation cfg name [token] = .error .badOperand := by
  cases hd : digitToken token with
  | none => exact assembleInvocation_of_no_digit cfg name hd
  | some v => rw [assembleInvocation_of_digit cfg name hd, invokeMacro, if_neg h]

end

/-- Settles O58: the line is the invocation, by the number of its arguments, the token and the table. -/
theorem macroLineTakesOneDigit : Obligations.MacroLineTakesOneDigit := by
  intro cfg line name args steps htokens hbasic hmacro
  rw [assembleLine_macro cfg htokens hbasic hmacro]
  refine ⟨?_, assembleInvocation_of_two_le cfg name, ?_, ?_, ?_⟩
  · rintro rfl
    rfl
  · rintro token rfl hdigit
    exact assembleInvocation_of_no_digit cfg name (digitToken_eq_none hdigit)
  · rintro token rfl ⟨entry, hentry, m, hm, z, hz, h15⟩
    refine assembleInvocation_of_bad_table cfg name token fun hok => ?_
    exact h15.not_ge ((macroTableOk_iff cfg.macros).mp hok entry hentry m hm z hz)
  · rintro c v rfl hc hliterals
    have hdigit : digitToken [c] = some v := hc
    rw [assembleInvocation_of_digit cfg name hdigit, invokeMacro, if_pos ((macroTableOk_iff cfg.macros).mpr hliterals)]

/-! ### Lines and tokens -/

/-- The lines of a text, after a beginning of the first one, are the parts between its line feeds. -/
theorem linesFrom_eq_splitOnPPrepend (run t : Text) :
    linesFrom run t = t.splitOnPPrepend (fun c => decide (c = '\n')) run.reverse := by
  induction t generalizing run with
  | nil => simp [linesFrom]
  | cons c rest ih =>
    by_cases hc : c = '\n'
    · simp [linesFrom, hc, ih, List.splitOnPPrepend_cons_eq_if]
    · simp [linesFrom, hc, ih, List.splitOnPPrepend_cons_eq_if]

/-- A line counts up to its first `;`. -/
theorem stripComment_eq_takeWhile (t : Text) : stripComment t = t.takeWhile fun c => decide (c ≠ ';') := by
  induction t with
  | nil => rfl
  | cons c rest ih =>
    by_cases hc : c = ';'
    · simp [stripComment, hc]
    · simp [stripComment, hc, ih]

/-- White space is one of four characters (log entry 16). -/
theorem isWhitespace_eq_decide_mem (c : Char) : c.isWhitespace = decide (c ∈ [' ', '\t', '\r', '\n']) := by
  simp [Char.isWhitespace, Bool.or_assoc]

/-- The tokens of a line, after a beginning of the first one, are the non-empty parts between its white space. -/
theorem tokensFrom_eq_filter_splitOnPPrepend (run t : Text) :
    tokensFrom run t =
      (t.splitOnPPrepend (fun c => decide (c ∈ [' ', '\t', '\r', '\n'])) run.reverse).filter
        fun part => decide (part ≠ []) := by
  simp only [← isWhitespace_eq_decide_mem]
  induction t generalizing run with
  | nil => by_cases hrun : run = [] <;> simp [tokensFrom, hrun]
  | cons c rest ih =>
    rw [tokensFrom, List.splitOnPPrepend_cons_eq_if]
    by_cases hc : c.isWhitespace = true
    · by_cases hrun : run = [] <;> simp [hc, hrun, ih]
    · simp [hc, ih]

/-- Settles O57: each of the three readings begins with nothing read. -/
theorem sourceTextReading : Obligations.SourceTextReading :=
  fun t => ⟨linesFrom_eq_splitOnPPrepend [] t, stripComment_eq_takeWhile t,
    tokensFrom_eq_filter_splitOnPPrepend [] t⟩

end Sys2Proof.Machine
